-- ==== Sys2Proof/Word.lean ====
section
/-! DEFINITION. Word: the widths of the codec's values and their plainest arithmetic
(spec/00_scope.md rule R16). Every quantity is unsigned; lengths, cursors, indices and counters are
natural numbers (DEDUCED, notes/assumptions/14.md), and only what the spec reads as bits is a bit vector. -/

namespace Sys2Proof

/-- A byte, a value 0 to 255 (rule R16). -/
abbrev Byte := BitVec 8

/-- A 16-bit unsigned number (rule R16). -/
abbrev U16 := BitVec 16

/-- A 32-bit unsigned number (rule R16). -/
abbrev U32 := BitVec 32

/-- `trunc_N(v) = v mod 2^N` (rule R16). -/
def truncN (n v : Nat) : Nat := v % 2 ^ n

/-- `HEADER_SIZE`, a protocol constant (rule R10). -/
def headerSize : Nat := 14

/-- `TRAILER_SIZE`, a protocol constant (rule R10). -/
def trailerSize : Nat := 4

/-- `MIN_PACKET = HEADER_SIZE + TRAILER_SIZE` (rule R10). -/
def minPacket : Nat := headerSize + trailerSize

end Sys2Proof
end

