-- ==== Sys2Proof/Config.lean ====
section
/-! DEFINITION. Config: the parameters that fix one instance of the codec (spec/00_scope.md rule R9)
and the free values, which the spec calls unspecified (spec/93_implementation_defined.md I11, I12,
I20). An instance is a value of `Config`; every meaning takes it, and no step changes it. -/

namespace Sys2Proof

/-- `VERSION_POLICY` (rules R9 and R115): which minor versions a receiver accepts. -/
inductive VersionPolicy where
  | exact
  | minorAtMost
deriving DecidableEq, Repr

/-- The parameters of an instance (rule R9). `CAP` is not a field: it is always
`14 + MAX_PAYLOAD + 4`. `MAX_PAYLOAD` ranges over 0 to 65535, which is what 16 bits hold. -/
structure Config where
  /-- `MAGIC`, 16-bit unsigned. -/
  magic : U16
  /-- `PROTO_MAJOR`, 8-bit unsigned. -/
  protoMajor : Byte
  /-- `PROTO_MINOR`, 8-bit unsigned. -/
  protoMinor : Byte
  /-- `VERSION_POLICY`. -/
  versionPolicy : VersionPolicy
  /-- `MAX_PAYLOAD`, 0 to 65535. -/
  maxPayload : U16
  /-- `CNT_W`, the width of the two counters, at least 1. -/
  cntW : Nat
  /-- `LEN_W`, the width of an operand length, at least 17. -/
  lenW : Nat
deriving DecidableEq, Repr

/-- The ranges rule R9 gives the two widths; the other ranges are in the types. -/
abbrev Config.wf (c : Config) : Prop := 1 ≤ c.cntW ∧ 17 ≤ c.lenW

/-- `CAP = HEADER_SIZE + MAX_PAYLOAD + TRAILER_SIZE` (rules R9 and R24). -/
def Config.cap (c : Config) : Nat := headerSize + c.maxPayload.toNat + trailerSize

/-- The reference configuration (rule R9, column "reference"). Its `VERSION_POLICY`, `MAX_PAYLOAD`,
`CNT_W` and `LEN_W` are the spec's choice for its vectors, not the hardware's
(DESIGN CHOICE, notes/assumptions/1.md). -/
def Config.reference : Config where
  magic := 0x5332
  protoMajor := 0
  protoMinor := 2
  versionPolicy := .exact
  maxPayload := 256
  cntW := 32
  lenW := 32

/-- FREE VALUE (notes/assumptions/4.md): what port line `line` shows where the spec leaves it
unspecified, at the `n`-th occasion. It has no body, so no proof can know a value of it. -/
opaque Config.freeWord : (n line : Nat) → U32

end Sys2Proof
end

