-- ==== Sys2Proof/Syntax.lean ====
section
/-! DEFINITION. Syntax: the six operations of spec/30_encoding.md rule R74, one constructor per row of
spec/opcode_table.json; the operation as the command port carries it (rule R72); and the decoded
header record (spec/10_state.md rule R32). -/

namespace Sys2Proof

/-- The six operations (rules R14 and R74). The operand is the operation's byte sequence; `FINIT` has
none. -/
inductive Instr where
  /-- `CRC16`, selector 0: the header checksum of any bytes (rule R93). -/
  | crc16 (data : List Byte)
  /-- `CRC32`, selector 1: the payload checksum of any bytes (rule R103). -/
  | crc32 (data : List Byte)
  /-- `HDR`, selector 2: decode and validate a header (rule R118). -/
  | hdr (data : List Byte)
  /-- `PKT`, selector 3: validate a whole packet (rule R131). -/
  | pkt (data : List Byte)
  /-- `FINIT`, selector 4: initialise the framer (rule R141). -/
  | finit
  /-- `FPUSH`, selector 5: push the next bytes of the stream (rule R154). -/
  | fpush (data : List Byte)
deriving DecidableEq, Repr

/-- An operation as the requester issues it: the triple `(op, len, data)` of rule R72, on `cmd_op`,
`cmd_len` and `in_data` (rule R78). It may be ill-formed: the decoder judges it. -/
structure Command where
  /-- `cmd_op`, 3 bits. -/
  op : BitVec 3
  /-- `cmd_len`, the operand length in bytes. -/
  len : Nat
  /-- The operand bytes supplied, in index order. -/
  data : List Byte
deriving DecidableEq, Repr

/-- The decoded header (rules R32 and R63): ten fields. -/
structure Header where
  magic : U16
  protoMajor : Byte
  protoMinor : Byte
  msgType : Byte
  flags : Byte
  src : Byte
  dst : Byte
  seq : U16
  payloadLen : U16
  headerCrc16 : U16
deriving DecidableEq, Repr

end Sys2Proof
end

