-- ==== Sys2Proof/WellFormed.lean ====
section
/-! DEFINITION. WellFormed: the one check an operation has as syntax. Its operand has a length `len`
with `0 <= len < 2^LEN_W` (spec/20_memory.md rule R42); every byte value is allowed. -/

namespace Sys2Proof

/-- The operand of an operation; `FINIT` has none (rule R72). -/
def Instr.operand : Instr → List Byte
  | .crc16 d => d
  | .crc32 d => d
  | .hdr d => d
  | .pkt d => d
  | .finit => []
  | .fpush d => d

/-- Rule R42: the operand's length fits `LEN_W` bits. -/
def Instr.wf (lenW : Nat) (i : Instr) : Bool := decide (i.operand.length < 2 ^ lenW)

end Sys2Proof
end

