-- ==== Sys2Proof/Decode.lean ====
section
/-! DEFINITION. Decode: from a command to an operation, and back. The decoder is total on commands and
refuses by name; the encoder is written from the selector table of spec/30_encoding.md rule R74. The
last part lays a command out as one number, as spec/opcode_table.json's format names its parts. -/

namespace Sys2Proof

/-- Why a command spells no operation. -/
inductive DecodeError where
  /-- Selectors 6 and 7 (rule R75): they select no operation. -/
  | reservedSelector (op : BitVec 3)
  /-- `cmd_len` does not fit `LEN_W` bits (rule R42). -/
  | lengthTooWide (len : Nat)
  /-- The operand bytes supplied are not exactly `cmd_len` many (rule R213, I16). -/
  | operandMismatch (len supplied : Nat)
  /-- `FINIT` with an operand: rule R72 gives it `len = 0` (DESIGN CHOICE, notes/assumptions/7.md). -/
  | finitOperand (len : Nat)
deriving DecidableEq, Repr

/-- What the decoder answers. -/
inductive DecodeResult where
  | instr (i : Instr)
  | rejected (e : DecodeError)
deriving DecidableEq, Repr

/-- The operation selected, or none for the reserved selectors (rules R74 and R75). -/
def selected (op : BitVec 3) (data : List Byte) : Option Instr :=
  if op = 0 then some (.crc16 data)
  else if op = 1 then some (.crc32 data)
  else if op = 2 then some (.hdr data)
  else if op = 3 then some (.pkt data)
  else if op = 4 then some .finit
  else if op = 5 then some (.fpush data)
  else none

/-- The decoder. A reserved selector is seen first, since the codec then reads no operand byte
(rule R75); after it the operand must have its stated length (rules R42 and R213), and `FINIT` none
(rule R72). -/
def decode (lenW : Nat) (c : Command) : DecodeResult :=
  match selected c.op c.data with
  | none => .rejected (.reservedSelector c.op)
  | some i =>
    if 2 ^ lenW ≤ c.len then .rejected (.lengthTooWide c.len)
    else if c.data.length ≠ c.len then .rejected (.operandMismatch c.len c.data.length)
    else if i = .finit ∧ c.len ≠ 0 then .rejected (.finitOperand c.len)
    else .instr i

/-- The selector of an operation (rule R74). -/
def selector : Instr → BitVec 3
  | .crc16 _ => 0
  | .crc32 _ => 1
  | .hdr _ => 2
  | .pkt _ => 3
  | .finit => 4
  | .fpush _ => 5

/-- The encoder: the triple `(op, len, data)` of rule R72. -/
def encode (i : Instr) : Command where
  op := selector i
  len := i.operand.length
  data := i.operand

/-- The bytes at the front of the number `v`, least significant first, `n` of them. -/
def bytesOfNat : (n v : Nat) → List Byte
  | 0, _ => []
  | n + 1, v => BitVec.ofNat 8 v :: bytesOfNat n (v / 256)

/-- The number whose bytes these are, least significant first. -/
def natOfBytes : List Byte → Nat
  | [] => 0
  | b :: bs => b.toNat + 256 * natOfBytes bs

/-- A command as one number: `op` in bits 2..0 of the first byte (bits 7..3 are no bits of it), then
`LEN_W` bits of `len`, then the operand bytes in index order (DESIGN CHOICE,
notes/assumptions/6.md). -/
def Command.toTableWord (lenW : Nat) (c : Command) : Nat :=
  c.op.toNat + 2 ^ 8 * (c.len + 2 ^ lenW * natOfBytes c.data)

/-- The command a number of `nbits` bits stands for, all bits above them zero. -/
def Command.ofTableWord (lenW nbits w : Nat) : Command :=
  let v := w % 2 ^ nbits
  let len := v / 2 ^ 8 % 2 ^ lenW
  { op := BitVec.ofNat 3 v
    len := len
    data := bytesOfNat len (v / 2 ^ 8 / 2 ^ lenW) }

/-- The operation the decoder reads from a table word, in the reference width of `LEN_W`. -/
def decodeTableWord (nbits w : Nat) : Option Instr :=
  match decode Config.reference.lenW (Command.ofTableWord Config.reference.lenW nbits w) with
  | .instr i => some i
  | .rejected _ => none

end Sys2Proof
end

