-- ==== Sys2Proof/Machine/State.lean ====
section
/-! DEFINITION. State: everything the spec gives the machine (spec/10_state.md,
spec/70_reset_and_hazards.md rule R201), as plain data; the agents' side of it (the requester's
pending inputs, what the framer has done and shown the sink); the reasons a step can stop; and the
state after reset. -/

namespace Sys2Proof.Machine

/-- The framer buffer `F.buf` (rule R23), the codec's only memory (rule R40): a list of
`(index, byte)` pairs in canonical form, indices strictly rising. An index not listed reads `0x00`,
the value reset and `FINIT` give every byte (rule R38), and no pair lists that value (DEDUCED, notes/assumptions/17.md). -/
abbrev Memory := List Host.Cell

/-- The canonical form of a memory. -/
abbrev Memory.wf (m : Memory) : Prop :=
  m.Pairwise (fun a b => a.1 < b.1) ∧ ∀ cell ∈ m, cell.2 ≠ 0#8

/-- The framer state `F` (rule R22). -/
structure Framer where
  /-- `F.buf`, `CAP` bytes (rule R23). -/
  buf : Memory
  /-- `F.wc`, the write cursor (rule R25). -/
  wc : Nat
  /-- `F.sync_loss_count`, `CNT_W` bits (rule R26). -/
  syncLossCount : Nat
  /-- `F.frames_emitted`, `CNT_W` bits (rule R27). -/
  framesEmitted : Nat
deriving DecidableEq, Repr

/-- The framer after reset and after `FINIT` (rules R38 and R141). -/
def Framer.initial : Framer where
  buf := []
  wc := 0
  syncLossCount := 0
  framesEmitted := 0

/-- The response registers of the block (rules R78 and R201): what `rsp_valid`, `rsp_status`,
`rsp_hdr_status`, `rsp_value` and the ten header outputs hold, and whether the operation they answer
returns a status. `outPins` shows them on the port. -/
structure Rsp where
  valid : Bool
  /-- Whether the operation answered returns a status (rule R77). If not, the port shows 0 for it
  (rule R78) whatever `status` holds (DESIGN CHOICE, notes/assumptions/5.md). -/
  returnsStatus : Bool
  status : BitVec 4
  hdrStatus : BitVec 4
  value : U32
  header : Header
deriving DecidableEq, Repr

/-- One frame as the sink receives it (rule R51), with the status registers as they read while it is
being delivered (rule R168). -/
structure Delivery where
  /-- The frame, `F.buf[0 .. flen)`. -/
  frame : List Byte
  /-- `st_wc` during the delivery. -/
  stWc : Nat
  /-- `st_sync_loss` during the delivery. -/
  stSyncLoss : Nat
  /-- `st_frames` during the delivery. -/
  stFrames : Nat
deriving DecidableEq, Repr

/-- What the framer does, one event each: the steps of rule R154's loop and its initialisations. -/
inductive FramerEvent where
  /-- The framer was initialised, by `FINIT` or by reset. -/
  | init
  /-- An input byte entered the buffer (`BufAppend`, rule R151). -/
  | append (b : Byte)
  /-- A byte was dropped from the front and counted (`discard1`, rule R150). -/
  | discard (b : Byte)
  /-- A frame was delivered to the sink (`emit`, rule R149). -/
  | emit (d : Delivery)
  /-- The bytes of a frame the sink had received when a reset cut its delivery (rule R200). -/
  | cutFrame (bytes : List Byte)
deriving DecidableEq, Repr

/-- An operation a reset abandons (rule R200), and how far it had come: how many turns of rule R154's
loop were done, and how many bytes of the frame then being delivered the sink had taken. -/
structure Abandoned where
  command : Command
  turns : Nat
  frameBytes : Nat
deriving DecidableEq, Repr

/-- What reaches the block from outside: a command of the requester with its operand, or hardware
reset, either between operations or with an operation in progress (rules R78 and R200). -/
inductive Input where
  | command (c : Command)
  | reset (abandoned : Option Abandoned)
deriving DecidableEq, Repr

/-- Why the machine stops with a fault. The spec gives the codec no fault state (rule R188); no step
from a state of the invariant raises one. -/
inductive Fault where
  /-- `FPUSH` in a state whose cursor is above `CAP`: the buffer has no such index (rules R25 and
  R41; DESIGN CHOICE, notes/assumptions/9.md). Raised by `execFpush`. Safe: the spec has no such state,
  and no step reaches one. -/
  | cursorBeyondCapacity
deriving DecidableEq, Repr

/-- Why a command is refused. -/
inductive Refusal where
  /-- An instruction whose meaning is not written yet. Raised by `exec`'s arms only. Safe. -/
  | notModelled (mnemonic : String)
  /-- `cmd_len` does not fit `LEN_W` bits: the port cannot carry it (rules R42 and R78). Raised by
  `step`. Safe. -/
  | lengthTooWide (len : Nat)
  /-- The operand bytes are not exactly `cmd_len` many; the spec has a model refuse this
  (spec/93_implementation_defined.md I16, rule R213; DEDUCED, notes/assumptions/11.md). Raised by `step`. Safe. -/
  | operandMismatch (len supplied : Nat)
  /-- `FINIT` with an operand, which rule R72 does not let it have (DESIGN CHOICE, notes/assumptions/7.md). Raised by `step`. Safe. -/
  | finitOperand (len : Nat)
deriving DecidableEq, Repr

/-- The whole machine between two operations (rule R12). -/
structure State where
  /-- The instance's parameters (rule R9); no step changes them (rule R34). -/
  cfg : Config
  /-- The framer state (rule R22). -/
  framer : Framer
  /-- The response registers (rules R78 and R201). -/
  rsp : Rsp
  /-- What the requester and the reset line bring next, the first at the head (rules R13 and R52). -/
  inputs : List Input
  /-- The model's own record: what the framer has done so far, oldest first
  (DESIGN CHOICE, notes/assumptions/3.md). -/
  events : List FramerEvent
  /-- The model's own counter behind the free values (DESIGN CHOICE, notes/assumptions/4.md). -/
  fresh : Nat
deriving DecidableEq, Repr

/-- A header record of zeros: what the header outputs show at power-on, where the spec leaves them
unspecified (DESIGN CHOICE, notes/assumptions/2.md). -/
def zeroHeader : Header where
  magic := 0
  protoMajor := 0
  protoMinor := 0
  msgType := 0
  flags := 0
  src := 0
  dst := 0
  seq := 0
  payloadLen := 0
  headerCrc16 := 0

/-- An instance of given parameters right after reset (rules R38 and R201). The framer is initialised
and `rsp_valid` is 0; the other response outputs have no reset value in the spec and are zero here
(DESIGN CHOICE, notes/assumptions/2.md). No command is pending. -/
def State.resetOf (c : Config) : State where
  cfg := c
  framer := Framer.initial
  rsp :=
    { valid := false
      returnsStatus := true
      status := 0
      hdrStatus := 0
      value := 0
      header := zeroHeader }
  inputs := []
  events := []
  fresh := 0

/-- The reference instance (rule R9) right after reset. -/
def State.reset : State := State.resetOf Config.reference

end Sys2Proof.Machine
end

