-- ==== Sys2Proof/Machine/Operands.lean ====
section
/-! DEFINITION. Operands: the one operand form, a byte sequence, and how fields are read from it and
written to it (spec/00_scope.md rule R17, spec/20_memory.md rule R44, spec/30_encoding.md rules R60 to
R63). Every access is one byte wide and has no alignment (rule R46). -/

namespace Sys2Proof.Machine

/-- `b[k]` of a byte sequence; the rules index only below the length. -/
def byteAt (b : List Byte) (k : Nat) : Byte := b.getD k 0

/-- `b[i .. j)`. -/
def slice (b : List Byte) (i j : Nat) : List Byte := (b.take j).drop i

/-- `le16(b, k) = b[k] + 256 * b[k+1]` (rule R44). -/
def le16 (b : List Byte) (k : Nat) : U16 :=
  BitVec.ofNat 16 ((byteAt b k).toNat + 256 * (byteAt b (k + 1)).toNat)

/-- `le32(b, k)`, four bytes, the least significant first (rule R44). -/
def le32 (b : List Byte) (k : Nat) : U32 :=
  BitVec.ofNat 32 ((byteAt b k).toNat + 256 * (byteAt b (k + 1)).toNat
    + 65536 * (byteAt b (k + 2)).toNat + 16777216 * (byteAt b (k + 3)).toNat)

/-- `put16(v) = [v[7:0], v[15:8]]` (rule R17). -/
def put16 (v : U16) : List Byte := [v.extractLsb' 0 8, v.extractLsb' 8 8]

/-- `put32(v)`, the four bytes of `v`, the least significant first (rule R17). -/
def put32 (v : U32) : List Byte :=
  [v.extractLsb' 0 8, v.extractLsb' 8 8, v.extractLsb' 16 8, v.extractLsb' 24 8]

/-- `decode_header(b)` (rule R63): the ten fields at their offsets (rule R60). -/
def decodeHeader (b : List Byte) : Header where
  magic := le16 b 0
  protoMajor := byteAt b 2
  protoMinor := byteAt b 3
  msgType := byteAt b 4
  flags := byteAt b 5
  src := byteAt b 6
  dst := byteAt b 7
  seq := le16 b 8
  payloadLen := le16 b 10
  headerCrc16 := le16 b 12

/-- The copy the header checksum is computed over: `b[0 .. 14) with [12] := 0 with [13] := 0`
(rules R56 and R68). The operand itself is not written. -/
def crcCopy (b : List Byte) : List Byte := ((b.take headerSize).set 12 0).set 13 0

/-- `frame_len(h) = 14 + h.payload_len + 4` (rule R67), on natural numbers, so it never wraps. -/
def frameLen (h : Header) : Nat := headerSize + h.payloadLen.toNat + trailerSize

end Sys2Proof.Machine
end

