-- ==== Sys2Proof/Machine/Flags.lean ====
section
/-! DEFINITION. Flags: the codec has no flag register (spec/10_state.md rule R33). Its condition
outputs are status codes, set by one operation, read by the requester only, never read by a later
operation (spec/30_encoding.md rules R76 to R78). This file has the outcomes, their codes, and what
each operation shows on the response outputs. -/

namespace Sys2Proof.Machine

/-- The status names of rule R76. The reserved codes 7 and 12 to 15 have no name: they are never
produced (spec/93_implementation_defined.md I18). -/
inductive Status where
  | ok
  | errArg
  | hdrErrLength
  | hdrErrMagic
  | hdrErrVersion
  | hdrErrPayloadTooLarge
  | hdrErrCrc
  | pktErrTooShort
  | pktErrHeader
  | pktErrLenMismatch
  | pktErrPayloadCrc
deriving DecidableEq, Repr

/-- The 4-bit code of a status (rule R76). -/
def statusCode : Status → BitVec 4
  | .ok => 0
  | .errArg => 1
  | .hdrErrLength => 2
  | .hdrErrMagic => 3
  | .hdrErrVersion => 4
  | .hdrErrPayloadTooLarge => 5
  | .hdrErrCrc => 6
  | .pktErrTooShort => 8
  | .pktErrHeader => 9
  | .pktErrLenMismatch => 10
  | .pktErrPayloadCrc => 11

/-- How `HDR` fails, in the order of its checks (rules R111 and R182). -/
inductive HdrError where
  | length
  | magic
  | version
  | payloadTooLarge
  | crc
deriving DecidableEq, Repr

/-- The result of `HDR` (rule R118): with any status but `OK` there is no header (rule R120). -/
inductive HdrResult where
  | ok (h : Header)
  | fail (e : HdrError)
deriving DecidableEq, Repr

/-- The result of `PKT` (rule R131): the header's sub-reason comes with the header failure and with no
other outcome (rule R136). -/
inductive PktResult where
  | ok
  | tooShort
  | header (e : HdrError)
  | lenMismatch
  | payloadCrc
deriving DecidableEq, Repr

/-- The status of a header failure (rule R182). -/
def hdrErrorStatus : HdrError → Status
  | .length => .hdrErrLength
  | .magic => .hdrErrMagic
  | .version => .hdrErrVersion
  | .payloadTooLarge => .hdrErrPayloadTooLarge
  | .crc => .hdrErrCrc

/-- The status of `HDR` (rule R118). -/
def hdrStatusOf : HdrResult → Status
  | .ok _ => .ok
  | .fail e => hdrErrorStatus e

/-- The status of `PKT` (rules R131 and R183). -/
def pktStatusOf : PktResult → Status
  | .ok => .ok
  | .tooShort => .pktErrTooShort
  | .header _ => .pktErrHeader
  | .lenMismatch => .pktErrLenMismatch
  | .payloadCrc => .pktErrPayloadCrc

/-- Header outputs of which the spec says nothing (I11, I20): every field is a free value. -/
def freeHeader (n : Nat) : Header where
  magic := (Config.freeWord n 3).setWidth 16
  protoMajor := (Config.freeWord n 4).setWidth 8
  protoMinor := (Config.freeWord n 5).setWidth 8
  msgType := (Config.freeWord n 6).setWidth 8
  flags := (Config.freeWord n 7).setWidth 8
  src := (Config.freeWord n 8).setWidth 8
  dst := (Config.freeWord n 9).setWidth 8
  seq := (Config.freeWord n 10).setWidth 16
  payloadLen := (Config.freeWord n 11).setWidth 16
  headerCrc16 := (Config.freeWord n 12).setWidth 16

/-- Response outputs of which the spec says nothing but `rsp_valid` (I11, I12, I20): every other line
is a free value. -/
def rspFree (n : Nat) (valid : Bool) : Rsp where
  valid := valid
  returnsStatus := true
  status := (Config.freeWord n 0).setWidth 4
  hdrStatus := (Config.freeWord n 1).setWidth 4
  value := Config.freeWord n 2
  header := freeHeader n

/-- The response of an operation that returns a status and nothing else the spec defines (rule R78). -/
def rspStatus (n : Nat) (st : Status) : Rsp :=
  { rspFree n true with status := statusCode st }

/-- The response of an operation that returns no status: `rsp_status` is 0 (rule R78). -/
def rspNoStatus (n : Nat) : Rsp := { rspStatus n .ok with returnsStatus := false }

/-- The response of `CRC16`: the result in bits 15:0 of `rsp_value`, bits 31:16 zero (rules R77 and
R78). -/
def rspCrc16 (n : Nat) (v : U16) : Rsp :=
  { rspNoStatus n with value := v.setWidth 32 }

/-- The response of `CRC32` (rules R77 and R78). -/
def rspCrc32 (n : Nat) (v : U32) : Rsp :=
  { rspNoStatus n with value := v }

/-- The response of `HDR`: its status, and the header record with status `OK` only (rules R77 and
R120). -/
def rspHdr (n : Nat) : HdrResult → Rsp
  | .ok h => { rspStatus n .ok with header := h }
  | .fail e => rspStatus n (hdrErrorStatus e)

/-- The response of `PKT`: its status, and `hdr_status` with `PKT_ERR_HEADER` only (rules R77 and
R136). -/
def rspPkt (n : Nat) (r : PktResult) : Rsp :=
  match r with
  | .header e => { rspStatus n .pktErrHeader with hdrStatus := statusCode (hdrErrorStatus e) }
  | r => rspStatus n (pktStatusOf r)

/-- The response of `FINIT`. The registers keep what they held (spec/70_reset_and_hazards.md rule
R201), and as `FINIT` returns no status the port shows `rsp_status` 0 (rule R78). -/
def rspFinit (old : Rsp) : Rsp := { old with valid := true, returnsStatus := false }

/-- `rsp_status` on the port: the status held, or 0 for an operation that returns none (rule R78). -/
def shownStatus (r : Rsp) : BitVec 4 := if r.returnsStatus then r.status else 0

end Sys2Proof.Machine
end

