-- ==== Sys2Proof/Machine/Ops.lean ====
section
/-! DEFINITION. Ops: the named operations over the machine's memory, counters and response outputs.
The codec has no register file and takes no exception (spec/10_state.md rule R20,
spec/60_exceptions.md rule R180): every failure is an ordinary result, so the one operation all
instructions share is completing with a response. The buffer primitives are those of
spec/20_memory.md rules R47 to R49 and spec/44_stream_framer.md rules R149 and R150. -/

namespace Sys2Proof.Machine

/-- `F.buf[a]`. An index not listed reads `0x00`. -/
def Memory.read : Memory → Nat → Byte
  | [], _ => 0#8
  | (k, v) :: rest, a => if k = a then v else Memory.read rest a

/-- `F.buf[a] <- v`, keeping the canonical form: the value an unlisted index reads as is not listed. -/
def Memory.write : Memory → Nat → Byte → Memory
  | [], a, v => if v = 0#8 then [] else [(a, v)]
  | (k, w) :: rest, a, v =>
    if a < k then (if v = 0#8 then (k, w) :: rest else (a, v) :: (k, w) :: rest)
    else if a = k then (if v = 0#8 then rest else (a, v) :: rest)
    else (k, w) :: Memory.write rest a v

/-- The copying loop of `BufDropFront` (rule R48): for `count` indices from `j` upwards, in ascending
order, `buf[j] <- buf[j + n]`. -/
def Memory.shiftDown (n : Nat) : (count j : Nat) → Memory → Memory
  | 0, _, m => m
  | count + 1, j, m =>
    Memory.shiftDown n count (j + 1) (Memory.write m j (Memory.read m (j + n)))

/-- `buffered(F) = F.buf[0 .. F.wc)`, the list view of the framer (rule R29). -/
def buffered (F : Framer) : List Byte := (List.range F.wc).map (Memory.read F.buf)

/-- `BufAppend(v)` (rule R47). -/
def bufAppend (F : Framer) (v : Byte) : Framer :=
  { F with buf := Memory.write F.buf F.wc v, wc := F.wc + 1 }

/-- `BufDropFront(n)` (rule R48): bytes at the new cursor and above keep what they held. -/
def bufDropFront (F : Framer) (n : Nat) : Framer :=
  { F with buf := Memory.shiftDown n (F.wc - n) 0 F.buf, wc := F.wc - n }

/-- `discard1()` (rule R150): drop the front byte and count it, wrapping at `CNT_W` bits (rule R26). -/
def discard1 (c : Config) (F : Framer) : Framer :=
  { bufDropFront F 1 with syncLossCount := truncN c.cntW (F.syncLossCount + 1) }

/-- What the sink sees of an emission: the first `flen` buffered bytes, before the counter goes up and
before the buffer is compacted (rules R149 and R168). -/
def delivery (F : Framer) (flen : Nat) : Delivery where
  frame := (buffered F).take flen
  stWc := F.wc
  stSyncLoss := F.syncLossCount
  stFrames := F.framesEmitted

/-- The framer after `emit_frame(flen)` (rule R149): the counter goes up, wrapping at `CNT_W` bits
(rule R27), then the buffer is compacted. -/
def emitFrame (c : Config) (F : Framer) (flen : Nat) : Framer :=
  { bufDropFront F flen with framesEmitted := truncN c.cntW (F.framesEmitted + 1) }

/-- Complete an operation with a response. The free values of the response are those of the present
count, which then moves on. -/
def complete (s : State) (r : Rsp) : State := { s with rsp := r, fresh := s.fresh + 1 }

/-- Put a new framer state in place and record what was done to it. -/
def framerDid (s : State) (F : Framer) (evs : List FramerEvent) : State :=
  { s with framer := F, events := s.events ++ evs }

end Sys2Proof.Machine
end

