-- ==== Sys2Proof/Machine/Crc16.lean ====
section
/-! DEFINITION. Crc16: the CRC-16 polynomial engine (spec/40_crc16.md) and the meaning of `CRC16`.
The running register `r16` lives inside one computation (spec/10_state.md rule R30): it is the
accumulator of `run16`. -/

namespace Sys2Proof.Machine

/-- One shift of the register (rule R92): the test is of bit 15 before the shift. -/
def crc16Shift (r : U16) : U16 := if r.getLsbD 15 then (r <<< 1) ^^^ 0x1021 else r <<< 1

/-- `crc16_step(r, b)` (rule R92): the byte into the high half, then eight shifts. -/
def crc16Step (r : U16) (b : Byte) : U16 := crc16Shift^[8] (r ^^^ (b.setWidth 16 <<< 8))

/-- `run16(r, d)`, the fold of the step over the bytes in index order (rules R93 and R96). -/
def run16 (r : U16) (d : List Byte) : U16 := d.foldl crc16Step r

/-- `CRC16(data)` (rule R93): initial value `0xFFFF`, no final xor. -/
def crc16 (data : List Byte) : U16 := run16 0xFFFF data

/-- The meaning of `CRC16` (rule R93): the result on `rsp_value`, no status, no state written. -/
def execCrc16 (data : List Byte) (s : State) : Host.Outcome State Fault Refusal :=
  .next (complete s (rspCrc16 s.fresh (crc16 data)))

end Sys2Proof.Machine
end

