-- ==== Sys2Proof/Machine/Crc32.lean ====
section
/-! DEFINITION. Crc32: the CRC-32 polynomial engine (spec/41_crc32.md) and the meaning of `CRC32`.
The running register `r32` lives inside one computation (spec/10_state.md rule R31): it is the
accumulator of `run32`. -/

namespace Sys2Proof.Machine

/-- One shift of the register (rule R102): the test is of bit 0 before the shift. -/
def crc32Shift (r : U32) : U32 := if r.getLsbD 0 then (r >>> 1) ^^^ 0xEDB88320 else r >>> 1

/-- `crc32_step(r, b)` (rule R102): the byte into the low byte, then eight shifts. -/
def crc32Step (r : U32) (b : Byte) : U32 := crc32Shift^[8] (r ^^^ b.setWidth 32)

/-- `run32(r, d)`, the fold of the step over the bytes in index order (rules R103 and R106). -/
def run32 (r : U32) (d : List Byte) : U32 := d.foldl crc32Step r

/-- `CRC32(data)` (rule R103), with the explicit test for no bytes that rule R104 demands. -/
def crc32 (data : List Byte) : U32 :=
  if data.length = 0 then 0x00000000 else run32 0xFFFFFFFF data ^^^ 0xFFFFFFFF

/-- The meaning of `CRC32` (rule R103): the result on `rsp_value`, no status, no state written. -/
def execCrc32 (data : List Byte) (s : State) : Host.Outcome State Fault Refusal :=
  .next (complete s (rspCrc32 s.fresh (crc32 data)))

end Sys2Proof.Machine
end

