-- ==== Sys2Proof/Machine/Hdr.lean ====
section
/-! DEFINITION. Hdr: the header codec (spec/42_header_codec.md) and the meaning of `HDR`. -/

namespace Sys2Proof.Machine

/-- `version_ok(maj, min)` under the instance's policy (rule R115); the comparison is unsigned. -/
def versionOk (c : Config) (maj min : Byte) : Bool :=
  match c.versionPolicy with
  | .exact => maj == c.protoMajor && min == c.protoMinor
  | .minorAtMost => maj == c.protoMajor && decide (min ≤ c.protoMinor)

/-- `HDR(b)` (rule R118): the first check that fails decides (rule R111). -/
def hdr (c : Config) (b : List Byte) : HdrResult :=
  if b.length < headerSize then .fail .length
  else
    let h := decodeHeader b
    if h.magic ≠ c.magic then .fail .magic
    else if versionOk c h.protoMajor h.protoMinor = false then .fail .version
    else if c.maxPayload < h.payloadLen then .fail .payloadTooLarge
    else if crc16 (crcCopy b) ≠ h.headerCrc16 then .fail .crc
    else .ok h

/-- The meaning of `HDR` (rule R118): status and header on the response outputs, no state written
(rule R119). -/
def execHdr (data : List Byte) (s : State) : Host.Outcome State Fault Refusal :=
  .next (complete s (rspHdr s.fresh (hdr s.cfg data)))

end Sys2Proof.Machine
end

