-- ==== Sys2Proof/Machine/Framer.lean ====
section
/-! DEFINITION. Framer: the stream framer (spec/44_stream_framer.md) and the meanings of `FINIT` and
`FPUSH`. The state machine's state is not stored: it is derived from the buffered bytes at every turn
(rule R143). -/

namespace Sys2Proof.Machine

/-- The framer's derived states (rule R143). -/
inductive FState where
  | filling
  | seekingMagic
  | awaitingHeader
  | headerBad
  | awaitingFrame (flen : Nat)
  | emit (flen : Nat)
deriving DecidableEq, Repr

/-- `fstate(q)` on the buffered bytes (rule R143). The capacity test is dead, and kept because the
spec says it must be defended (rule R148). -/
def fstate (c : Config) (q : List Byte) : FState :=
  if q.length < 2 then .filling
  else if le16 q 0 ≠ c.magic then .seekingMagic
  else if q.length < headerSize then .awaitingHeader
  else
    match hdr c (q.take headerSize) with
    | .fail _ => .headerBad
    | .ok h =>
      if c.cap < frameLen h then .headerBad
      else if q.length < frameLen h then .awaitingFrame (frameLen h)
      else .emit (frameLen h)

/-- The waiting states: nothing can be done without more input (rule R143). -/
def waiting : FState → Bool
  | .filling => true
  | .seekingMagic => false
  | .awaitingHeader => true
  | .headerBad => false
  | .awaitingFrame _ => true
  | .emit _ => false

/-- A framer is quiescent when its derived state is a waiting state (rule R157). -/
def quiescent (c : Config) (F : Framer) : Bool := waiting (fstate c (buffered F))

/-- What one turn of the loop of rule R154 does. -/
inductive Turn where
  /-- The loop returns. -/
  | finished
  /-- One discard, one emission or one append was made. -/
  | again (F : Framer) (evs : List FramerEvent) (rest : List Byte)
deriving DecidableEq, Repr

/-- The turn that discards the front byte (rules R145, R147 and R150). -/
def discardTurn (c : Config) (F : Framer) (data : List Byte) : Turn :=
  .again (discard1 c F) [.discard (Memory.read F.buf 0)] data

/-- The turn that emits a frame (rule R149). -/
def emitTurn (c : Config) (F : Framer) (flen : Nat) (data : List Byte) : Turn :=
  .again (emitFrame c F flen) [.emit (delivery F flen)] data

/-- The turn in a waiting state: return with no input left (rule R153); else make room if the buffer
is full (rule R152), then take one byte (rule R151). -/
def inputTurn (c : Config) (F : Framer) : List Byte → Turn
  | [] => .finished
  | b :: rest =>
    if F.wc = c.cap then
      .again (bufAppend (discard1 c F) b) [.discard (Memory.read F.buf 0), .append b] rest
    else .again (bufAppend F b) [.append b] rest

/-- One turn of the loop of rule R154, `data` being the input not yet taken. -/
def turn (c : Config) (F : Framer) (data : List Byte) : Turn :=
  match fstate c (buffered F) with
  | .seekingMagic => discardTurn c F data
  | .headerBad => discardTurn c F data
  | .emit flen => emitTurn c F flen data
  | .filling => inputTurn c F data
  | .awaitingHeader => inputTurn c F data
  | .awaitingFrame _ => inputTurn c F data

/-- Where a number of turns has brought an `FPUSH`: the framer, what was done, the input not yet
taken, and whether the loop has returned. -/
structure FramerRun where
  framer : Framer
  events : List FramerEvent
  rest : List Byte
  returned : Bool
deriving DecidableEq, Repr

/-- The loop of rule R154, at most so many turns of it. -/
def turns (c : Config) : (n : Nat) → Framer → List Byte → FramerRun
  | 0, F, data => { framer := F, events := [], rest := data, returned := false }
  | n + 1, F, data =>
    match turn c F data with
    | .finished => { framer := F, events := [], rest := data, returned := true }
    | .again F' evs rest =>
      let r := turns c n F' rest
      { r with events := evs ++ r.events }

/-- Turns enough for every `FPUSH` to return: one an append, and every other turn that does not return
drops a byte that was buffered or appended (rule R164). -/
def turnBound (F : Framer) (data : List Byte) : Nat := F.wc + 2 * data.length + 1

/-- `FPUSH(data)` on the framer (rule R154). -/
def push (c : Config) (F : Framer) (data : List Byte) : FramerRun :=
  turns c (turnBound F data) F data

/-- The meaning of `FINIT` (rule R141): the framer is initialised; nothing is emitted and nothing is
counted as lost. -/
def execFinit (s : State) : Host.Outcome State Fault Refusal :=
  .next (complete (framerDid s Framer.initial [.init]) (rspFinit s.rsp))

/-- The meaning of `FPUSH` (rule R154): the loop runs until it returns; no status goes to the
requester (rule R156) and the frames go to the sink (rule R155). A cursor above `CAP` is no state of
the machine (rule R25). -/
def execFpush (data : List Byte) (s : State) : Host.Outcome State Fault Refusal :=
  if s.cfg.cap < s.framer.wc then .fault .cursorBeyondCapacity
  else
    let r := push s.cfg s.framer data
    .next (complete (framerDid s r.framer r.events) (rspNoStatus s.fresh))

end Sys2Proof.Machine
end

