-- ==== Sys2Proof/Machine/Pkt.lean ====
section
/-! DEFINITION. Pkt: the packet validator (spec/43_packet_validator.md) and the meaning of `PKT`. -/

namespace Sys2Proof.Machine

/-- The payload of a packet with header `h`: `b[14 .. 14 + h.payload_len)` (rule R130). -/
def payloadOf (h : Header) (b : List Byte) : List Byte :=
  slice b headerSize (headerSize + h.payloadLen.toNat)

/-- The stored payload checksum, the four bytes after the payload (rule R129). -/
def storedCrc32 (h : Header) (b : List Byte) : U32 := le32 b (headerSize + h.payloadLen.toNat)

/-- `PKT(b)` (rule R131): too short, header, length, payload checksum, in this order (rule R133). The
lengths are natural numbers, so the sum never wraps (rule R128). -/
def pkt (c : Config) (b : List Byte) : PktResult :=
  if b.length < minPacket then .tooShort
  else
    match hdr c b with
    | .fail e => .header e
    | .ok h =>
      if b.length ≠ frameLen h then .lenMismatch
      else if crc32 (payloadOf h b) ≠ storedCrc32 h b then .payloadCrc
      else .ok

/-- The meaning of `PKT` (rule R131): status and sub-status on the response outputs, no state written
(rule R132). -/
def execPkt (data : List Byte) (s : State) : Host.Outcome State Fault Refusal :=
  .next (complete s (rspPkt s.fresh (pkt s.cfg data)))

end Sys2Proof.Machine
end

