-- ==== Sys2Proof/Machine/Dispatch.lean ====
section
/-! DEFINITION. Dispatch: one arm per operation, each one call of its meaning. -/

namespace Sys2Proof.Machine

def exec (i : Instr) (s : State) : Host.Outcome State Fault Refusal :=
  match i with
  | .crc16 data => Sys2Proof.Machine.execCrc16 data s
  | .crc32 data => Sys2Proof.Machine.execCrc32 data s
  | .hdr data => Sys2Proof.Machine.execHdr data s
  | .pkt data => Sys2Proof.Machine.execPkt data s
  | .finit => Sys2Proof.Machine.execFinit s
  | .fpush data => Sys2Proof.Machine.execFpush data s

end Sys2Proof.Machine
end

