-- ==== Sys2Proof/Machine/Ports.lean ====
section
/-! DEFINITION. Ports: what reaches the block and what it shows, besides its six operations: hardware
reset (spec/70_reset_and_hazards.md rule R200), the answer to a reserved selector (spec/30_encoding.md
rule R75), a cycle without a command, the status and constant registers (spec/10_state.md rule R35)
and the output pins (spec/30_encoding.md rule R78). -/

namespace Sys2Proof.Machine

/-- The selector of `FPUSH` (rule R74), the one operation that touches the framer's bytes. -/
def fpushSelector : BitVec 3 := 5

/-- What an abandoned operation had done when the reset came (rule R200). The pure operations and
`FINIT` leave nothing behind. An `FPUSH` had made some turns, on the operand bytes it was given, and
of a frame then being delivered the sink had taken some bytes (DEDUCED, notes/assumptions/13.md). -/
def abandonedEvents (c : Config) (F : Framer) (a : Abandoned) : List FramerEvent :=
  if a.command.op = fpushSelector then
    let r := turns c a.turns F (a.command.data.take a.command.len)
    match fstate c (buffered r.framer) with
    | .emit flen => r.events ++ [.cutFrame (((buffered r.framer).take flen).take a.frameBytes)]
    | _ => r.events
  else []

/-- What a hardware reset finds already done (rule R200). -/
def eventsBeforeReset (c : Config) (F : Framer) : Option Abandoned → List FramerEvent
  | none => []
  | some a => abandonedEvents c F a

/-- Hardware reset (rule R200): the effect of `FINIT`, and an operation in progress is abandoned, with
no response. `rsp_valid` is 0 and the other response outputs are unspecified (rule R201), so they are
free values. -/
def hardwareReset (a : Option Abandoned) (s : State) : State :=
  complete (framerDid s Framer.initial (eventsBeforeReset s.cfg s.framer a ++ [.init]))
    (rspFree s.fresh false)

/-- The answer to a reserved selector (rule R75): status `ERR_ARG`, no operand byte read, no state
changed, nothing emitted (DEDUCED of a model's step, notes/assumptions/10.md). -/
def answerReserved (s : State) : State := complete s (rspStatus s.fresh .errArg)

/-- A cycle in which no command is taken: `rsp_valid`, 1 for one cycle only (rule R78), is 0, and the
other response outputs have no meaning (DESIGN CHOICE, notes/assumptions/8.md). -/
def idle (s : State) : State := complete s (rspFree s.fresh false)

/-- The status and constant registers of rule R35, S0 to S2 and K0 to K5. -/
inductive StatusReg where
  | wc
  | syncLossCount
  | framesEmitted
  | magic
  | protoMajor
  | protoMinor
  | versionPolicy
  | maxPayload
  | cap
deriving DecidableEq, Repr

/-- The width of a status register (rule R35). For `WC` it is `ceil(log2(CAP + 1))`, which for a `CAP`
of at least 1 is the number of binary digits of `CAP`. -/
def statusWidth (c : Config) : StatusReg → Nat
  | .wc => Nat.log2 c.cap + 1
  | .syncLossCount => c.cntW
  | .framesEmitted => c.cntW
  | .magic => 16
  | .protoMajor => 8
  | .protoMinor => 8
  | .versionPolicy => 1
  | .maxPayload => 16
  | .cap => 17

/-- A read of a status register between operations, without side effect (rules R35 and R209). -/
def readStatus (s : State) : StatusReg → Nat
  | .wc => s.framer.wc
  | .syncLossCount => s.framer.syncLossCount
  | .framesEmitted => s.framer.framesEmitted
  | .magic => s.cfg.magic.toNat
  | .protoMajor => s.cfg.protoMajor.toNat
  | .protoMinor => s.cfg.protoMinor.toNat
  | .versionPolicy => (match s.cfg.versionPolicy with | .exact => 0 | .minorAtMost => 1)
  | .maxPayload => s.cfg.maxPayload.toNat
  | .cap => s.cfg.cap

/-- The output pins of rule R78 between two operations. -/
structure OutPins where
  cmdReady : Bool
  inReady : Bool
  rspValid : Bool
  rspStatus : BitVec 4
  rspHdrStatus : BitVec 4
  rspValue : U32
  /-- The ten header outputs. -/
  header : Header
  frmValid : Bool
  stWc : Nat
  stSyncLoss : Nat
  stFrames : Nat
deriving DecidableEq, Repr

/-- Between operations the codec accepts a command, takes no operand byte and delivers no frame byte
(rules R78, R201 and R213; DEDUCED,
notes/assumptions/16.md); the response outputs and the three status outputs show the state. -/
def outPins (s : State) : OutPins where
  cmdReady := true
  inReady := false
  rspValid := s.rsp.valid
  rspStatus := shownStatus s.rsp
  rspHdrStatus := s.rsp.hdrStatus
  rspValue := s.rsp.value
  header := s.rsp.header
  frmValid := false
  stWc := readStatus s .wc
  stSyncLoss := readStatus s .syncLossCount
  stFrames := readStatus s .framesEmitted

/-- One frame byte on `frm_data`, with its marks `frm_first` and `frm_last` (rule R78). -/
structure FrmBeat where
  data : Byte
  first : Bool
  last : Bool
deriving DecidableEq, Repr

/-- How a frame leaves on the frame port: its bytes in index order, byte 0 and byte `flen - 1` marked
(rule R78). -/
def frmBeats (f : List Byte) : List FrmBeat :=
  (List.range f.length).map fun i =>
    { data := byteAt f i, first := i == 0, last := i + 1 == f.length }

end Sys2Proof.Machine
end

