-- ==== Sys2Proof/Machine/Run.lean ====
section
/-! DEFINITION. Run: how one input is taken. A command is decoded and its operation executed; a
reserved selector is answered on the response port (spec/30_encoding.md rule R75); a command that is
no transaction is refused by name. -/

namespace Sys2Proof.Machine

/-- Run one command on a state from whose inputs it was taken. -/
def runCommand (c : Command) (s : State) : Host.Outcome State Fault Refusal :=
  match decode s.cfg.lenW c with
  | .instr i => exec i s
  | .rejected (.reservedSelector _) => .next (answerReserved s)
  | .rejected (.lengthTooWide len) => .refused (.lengthTooWide len)
  | .rejected (.operandMismatch len supplied) => .refused (.operandMismatch len supplied)
  | .rejected (.finitOperand len) => .refused (.finitOperand len)

/-- Take the next input in the requester's order (spec/20_memory.md rule R52), or idle when nothing is
pending. -/
def takeInput (s : State) : Host.Outcome State Fault Refusal :=
  match s.inputs with
  | [] => .next (idle s)
  | .command c :: rest => runCommand c { s with inputs := rest }
  | .reset a :: rest => .next (hardwareReset a { s with inputs := rest })

/-- The command of a table word, put in front of the requester's inputs. -/
def issueWord (s : State) (nbits w : Nat) : State :=
  { s with inputs := .command (Command.ofTableWord s.cfg.lenW nbits w) :: s.inputs }

end Sys2Proof.Machine
end

