-- ==== Sys2Proof/Machine/Step.lean ====
section
/-! DEFINITION. Step: the codec has no program counter (spec/10_state.md rule R21). A step takes the
next input, in the order the requester issues them, and runs it to completion (spec/20_memory.md rule
R52, spec/00_scope.md rules R12 and R13; DEDUCED, notes/assumptions/12.md and 15.md). -/

namespace Sys2Proof.Machine

/-- One step of the machine. -/
def step (s : State) : Host.Outcome State Fault Refusal := takeInput s

/-- `s` with the command that the `nbits` bits of `w` stand for put where `step` takes its next input:
at the head of the requester's inputs (notes/assumptions/6.md). -/
def State.withFetchWord (s : State) (nbits w : Nat) : State := issueWord s nbits w

end Sys2Proof.Machine
end

