-- ==== Sys2Proof/Machine/Wire.lean ====
section
/-! DEFINITION. Wire: the two construction helpers of spec/30_encoding.md rules R69 and R70, with which
laws about headers and frames are stated. They are no operations of the hardware (spec/00_scope.md
rule R7). -/

namespace Sys2Proof.Machine

/-- The 14 header bytes with the checksum field zero (rule R69). -/
def headerBytes (h : Header) : List Byte :=
  put16 h.magic ++ [h.protoMajor, h.protoMinor, h.msgType, h.flags, h.src, h.dst]
    ++ put16 h.seq ++ put16 h.payloadLen ++ [0, 0]

/-- `encode_header(h)` (rule R69); the field `header_crc16` of `h` is ignored. -/
def encodeHeader (h : Header) : List Byte :=
  let z := headerBytes h
  (z.set 12 ((crc16 z).extractLsb' 0 8)).set 13 ((crc16 z).extractLsb' 8 8)

/-- `build_frame(h, p)` for a payload of at most 65535 bytes (rule R70). -/
def buildFrame (h : Header) (p : List Byte) : List Byte :=
  encodeHeader { h with payloadLen := BitVec.ofNat 16 p.length } ++ p ++ put32 (crc32 p)

end Sys2Proof.Machine
end

