-- ==== Sys2Proof/Safety.lean ====
section
/-! DEFINITION. Safety: the terms statements are made in. What a good state is (the invariant), the
books of the framer (which byte went where), running several operations in order, a single-bit
change, the framer working on a whole stream at once, and frames in noise. -/

namespace Sys2Proof.Machine

/-- The bytes pushed into the buffer, oldest first. -/
def appendedBytes : List FramerEvent → List Byte
  | [] => []
  | .append b :: es => b :: appendedBytes es
  | .init :: es => appendedBytes es
  | .discard _ :: es => appendedBytes es
  | .emit _ :: es => appendedBytes es
  | .cutFrame _ :: es => appendedBytes es

/-- The bytes that left the buffer, by discard or in a frame, oldest first. -/
def consumedBytes : List FramerEvent → List Byte
  | [] => []
  | .append _ :: es => consumedBytes es
  | .init :: es => consumedBytes es
  | .discard b :: es => b :: consumedBytes es
  | .emit d :: es => d.frame ++ consumedBytes es
  | .cutFrame _ :: es => consumedBytes es

/-- The frames delivered to the sink, with what it saw, oldest first. -/
def deliveries : List FramerEvent → List Delivery
  | [] => []
  | .append _ :: es => deliveries es
  | .init :: es => deliveries es
  | .discard _ :: es => deliveries es
  | .emit d :: es => d :: deliveries es
  | .cutFrame _ :: es => deliveries es

/-- The frames delivered to the sink, oldest first. -/
def framesOf (es : List FramerEvent) : List (List Byte) := (deliveries es).map Delivery.frame

/-- The bytes discarded, oldest first. -/
def discardedBytes : List FramerEvent → List Byte
  | [] => []
  | .append _ :: es => discardedBytes es
  | .init :: es => discardedBytes es
  | .discard b :: es => b :: discardedBytes es
  | .emit _ :: es => discardedBytes es
  | .cutFrame _ :: es => discardedBytes es

/-- What has happened since the framer was last initialised. -/
def sinceInit : List FramerEvent → List FramerEvent
  | [] => []
  | e :: es => if FramerEvent.init ∈ e :: es then sinceInit es else e :: es

/-- The framer's books balance (rule R161): since the last initialisation every byte pushed is, in
order, a discarded byte, a byte of one emitted frame, or still buffered; and the two counters count
the discards and the frames, modulo their width (rules R26 and R27). -/
structure Ledger (c : Config) (F : Framer) (es : List FramerEvent) : Prop where
  bytes : appendedBytes (sinceInit es) = consumedBytes (sinceInit es) ++ buffered F
  lost : F.syncLossCount = truncN c.cntW (discardedBytes (sinceInit es)).length
  frames : F.framesEmitted = truncN c.cntW (deliveries (sinceInit es)).length

/-- What rules R25, R28 and R41 say of a framer between operations: the buffer in its canonical form
and inside `CAP`, the cursor below `CAP`, no discard and no emission enabled. -/
structure FramerGood (c : Config) (F : Framer) : Prop where
  canonical : Memory.wf F.buf
  inside : ∀ cell ∈ F.buf, cell.1 < c.cap
  cursor : F.wc < c.cap
  quiet : quiescent c F = true

/-- The invariant of the machine between operations. -/
structure State.Inv (s : State) : Prop where
  config : s.cfg.wf
  framer : FramerGood s.cfg s.framer
  ledger : Ledger s.cfg s.framer s.events

/-- The requester issues these operations, one after the other (rule R52). -/
def execAll : List Instr → State → Host.Outcome State Fault Refusal
  | [], s => .next s
  | i :: is, s =>
    match exec i s with
    | .next t => execAll is t
    | .fault r => .fault r
    | .refused r => .refused r

/-- `b` with bit `k` of byte `i` changed. -/
def flipBit (b : List Byte) (i k : Nat) : List Byte := b.set i (byteAt b i ^^^ (1#8 <<< k))

/-- One shift of a CRC-32 register that is not reflected: left, most significant bit first, with the
polynomial as rule R100 gives it. -/
def crc32MsbShift (r : U32) : U32 := if r.getLsbD 31 then (r <<< 1) ^^^ 0x04C11DB7 else r <<< 1

/-- The byte step of a CRC-32 engine that is not reflected: the byte meets the top of the register. -/
def crc32MsbStep (r : U32) (b : Byte) : U32 := crc32MsbShift^[8] (r ^^^ (b.setWidth 32 <<< 24))

/-- A byte sequence is header-valid when `HDR` has status `OK` on it (rule R118). -/
def headerValid (c : Config) (b : List Byte) : Prop := ∃ h, hdr c b = .ok h

/-- What the framer does with a stream, seen from outside. -/
inductive Action where
  | discard (b : Byte)
  | emit (frame : List Byte)
deriving DecidableEq, Repr

/-- The discards and the frames of a record, in order. -/
def actionsOf : List FramerEvent → List Action
  | [] => []
  | .append _ :: es => actionsOf es
  | .init :: es => actionsOf es
  | .discard b :: es => .discard b :: actionsOf es
  | .emit d :: es => .emit d.frame :: actionsOf es
  | .cutFrame _ :: es => actionsOf es

/-- The framer given a whole stream at once in a buffer without bound: it discards and emits until
nothing more is enabled, at most `n` times. Rule R151 says that copying input in bulk behaves
identically. -/
def bulkTurns (c : Config) : (n : Nat) → List Byte → List Action × List Byte
  | 0, q => ([], q)
  | n + 1, q =>
    match fstate c q with
    | .seekingMagic => let r := bulkTurns c n (q.drop 1); (.discard (byteAt q 0) :: r.1, r.2)
    | .headerBad => let r := bulkTurns c n (q.drop 1); (.discard (byteAt q 0) :: r.1, r.2)
    | .emit flen => let r := bulkTurns c n (q.drop flen); (.emit (q.take flen) :: r.1, r.2)
    | .filling => ([], q)
    | .awaitingHeader => ([], q)
    | .awaitingFrame _ => ([], q)

/-- The bulk framer run to its end; every turn takes at least one byte, so `q.length` turns do. -/
def bulk (c : Config) (q : List Byte) : List Action × List Byte := bulkTurns c q.length q

/-- A run of noise followed by one frame. -/
structure Burst where
  noise : List Byte
  frame : List Byte
deriving DecidableEq, Repr

/-- The stream of some bursts and the noise after the last frame. -/
def streamOf : List Burst → List Byte → List Byte
  | [], tail => tail
  | b :: bs, tail => b.noise ++ (b.frame ++ streamOf bs tail)

/-- No 14-byte window that starts inside the noise is header-valid, windows that run on into what
follows included (rule R163). -/
def NoiseClean (c : Config) (noise following : List Byte) : Prop :=
  ∀ k, k < noise.length → ¬ headerValid c ((noise ++ following).drop k)

/-- The condition of rule R163: every frame is a valid packet and every run of noise is clean. -/
def StreamClean (c : Config) : List Burst → List Byte → Prop
  | [], tail => NoiseClean c tail []
  | b :: bs, tail =>
    NoiseClean c b.noise (b.frame ++ streamOf bs tail) ∧ pkt c b.frame = .ok ∧ StreamClean c bs tail

/-- The length of all the noise of a stream. -/
def noiseLength : List Burst → List Byte → Nat
  | [], tail => tail.length
  | b :: bs, tail => b.noise.length + noiseLength bs tail

/-- Two framers no operation can tell apart (rule R29): they differ at most in buffer bytes at and
above the cursor. -/
structure SameView (F G : Framer) : Prop where
  wc : F.wc = G.wc
  bytes : buffered F = buffered G
  lost : F.syncLossCount = G.syncLossCount
  frames : F.framesEmitted = G.framesEmitted

/-- What the response port, the sink and the requester can tell of a state: everything but buffer bytes
at and above the cursor. -/
structure SameState (s u : State) : Prop where
  cfg : s.cfg = u.cfg
  framer : SameView s.framer u.framer
  rsp : s.rsp = u.rsp
  inputs : s.inputs = u.inputs
  events : s.events = u.events
  fresh : s.fresh = u.fresh

end Sys2Proof.Machine
end

