-- ==== Sys2Proof/Certificates/Slice0/Obligations.lean ====
section
/-! DEFINITION. Obligations: what is claimed of the codec, one definition a statement. Each docstring
names the rules of spec/ it rests on. Every statement holds for every instance (every value of
`Config`) unless it names the reference configuration. -/

open Sys2Proof Sys2Proof.Machine

/-! Encoding and the step. -/

/-- Words of the selector table (spec/30_encoding.md rules R74 and R75), in the number layout of
notes/assumptions/6.md, a choice of the model. (In the spec: R74, R75, R72 are marked decision.)
-/
def Obligations.SelectorWordsDecode : Prop :=
  decodeTableWord 8 0b000 = some (.crc16 []) ∧ decodeTableWord 8 0b001 = some (.crc32 []) ∧
  decodeTableWord 8 0b010 = some (.hdr []) ∧ decodeTableWord 8 0b011 = some (.pkt []) ∧
  decodeTableWord 8 0b100 = some .finit ∧ decodeTableWord 8 0b101 = some (.fpush []) ∧
  decodeTableWord 8 0b110 = none ∧ decodeTableWord 8 0b111 = none ∧
  decodeTableWord 56 (0b101 + 2 ^ 8 * 2 + 2 ^ 40 * 0x5332) = some (.fpush [0x32, 0x53])

/-- Decoding the encoding of any well-formed operation gives it back, as the triple of rule R72
and as the number of notes/assumptions/6.md (a choice of the model). (In the spec: R72, R74, R42
are marked decision.) -/
def Obligations.DecodeOfEncodeIsTheOperation : Prop :=
  ∀ (lenW nbits : Nat) (i : Instr), i.wf lenW = true →
    decode lenW (encode i) = .instr i ∧
    (8 + lenW + 8 * i.operand.length ≤ nbits →
      decode lenW (Command.ofTableWord lenW nbits ((encode i).toTableWord lenW)) = .instr i)

/-- A command that decodes is the encoding of what it decodes to, and that is well-formed: every
operation has one encoding (rules R72 and R74). (In the spec: R72, R74, R42, R213 are marked
decision.) -/
def Obligations.AcceptedCommandIsTheEncoding : Prop :=
  ∀ (lenW : Nat) (c : Command) (i : Instr), decode lenW c = .instr i →
    c = encode i ∧ i.wf lenW = true

/-- Rule R75: the reserved selectors spell no operation, and the port answers them with `ERR_ARG`,
whatever operand comes with them, with no other effect. (In the spec: R75 is marked decision.) -/
def Obligations.ReservedSelectorsAnswerErrArg : Prop :=
  ∀ (s : State) (c : Command) (rest : List Input), c.op = 6 ∨ c.op = 7 →
    s.inputs = .command c :: rest →
    (∀ lenW, decode lenW c = .rejected (.reservedSelector c.op)) ∧
    ∃ t, step s = .next t ∧ t.rsp.valid = true ∧ t.rsp.status = statusCode .errArg ∧
      (outPins t).rspStatus = t.rsp.status ∧
      t.cfg = s.cfg ∧ t.framer = s.framer ∧ t.events = s.events ∧ t.inputs = rest

/-- A step takes the requester's next command and runs exactly the operation it decodes to, on the
state without that command (rules R12, R21 and R52). (In the spec: R12, R21 are marked decision.)
-/
def Obligations.StepRunsTheDecodedOperation : Prop :=
  ∀ (s : State) (c : Command) (rest : List Input) (i : Instr),
    s.inputs = .command c :: rest → decode s.cfg.lenW c = .instr i →
    step s = exec i { s with inputs := rest }

/-- What a step does otherwise: with nothing pending it idles, showing no response and changing
nothing the spec gives a meaning (the model's choice, notes/assumptions/8.md); a command that is
no transaction is refused by name (I16, rules R42, R72 and R213; for `FINIT` the model's choice,
notes/assumptions/7.md). (In the spec: R42, R72, R213, R78 are marked decision.) -/
def Obligations.StepIdlesOrRefusesByName : Prop :=
  (∀ s : State, s.inputs = [] →
    ∃ t, step s = .next t ∧ t.rsp.valid = false ∧ t.cfg = s.cfg ∧ t.framer = s.framer ∧
      t.events = s.events ∧ t.inputs = []) ∧
  (∀ (s : State) (c : Command) (rest : List Input),
    s.inputs = .command c :: rest → c.op.toNat < 6 →
    (2 ^ s.cfg.lenW ≤ c.len → step s = .refused (.lengthTooWide c.len)) ∧
    (c.len < 2 ^ s.cfg.lenW → c.data.length ≠ c.len →
      step s = .refused (.operandMismatch c.len c.data.length)) ∧
    (c.len < 2 ^ s.cfg.lenW → c.data.length = c.len → c.op = 4 → c.len ≠ 0 →
      step s = .refused (.finitOperand c.len)))

/-! The checksum engines. -/

/-- `CRC16` completes in every state with its result in the low half of `rsp_value` and status 0,
and changes nothing else (rules R91, R93, R77 and R78). (In the spec: R77, R78 are marked
decision.) -/
def Obligations.Crc16CompletesWithItsResult : Prop :=
  ∀ (d : List Byte) (s : State),
    ∃ t, exec (.crc16 d) s = .next t ∧ t.rsp.valid = true ∧ t.rsp.status = 0 ∧
      (outPins t).rspStatus = 0 ∧
      t.rsp.value = (d.foldl crc16Step 0xFFFF).setWidth 32 ∧
      t.cfg = s.cfg ∧ t.framer = s.framer ∧ t.events = s.events ∧ t.inputs = s.inputs

/-- `CRC32` completes in every state with its result on `rsp_value` and status 0, and changes
nothing else (rules R101, R103, R77 and R78). (In the spec: R102 is marked derived; R77, R78 are
marked decision.) -/
def Obligations.Crc32CompletesWithItsResult : Prop :=
  ∀ (d : List Byte) (s : State),
    ∃ t, exec (.crc32 d) s = .next t ∧ t.rsp.valid = true ∧ t.rsp.status = 0 ∧
      (outPins t).rspStatus = 0 ∧
      t.rsp.value = (if d = [] then 0 else d.foldl crc32Step 0xFFFFFFFF ^^^ 0xFFFFFFFF) ∧
      t.cfg = s.cfg ∧ t.framer = s.framer ∧ t.events = s.events ∧ t.inputs = s.inputs

/-- Rules R94 and R104: the two results for no bytes; and that the override of rule R104 changes no
result (spec/90_conflicts.md C2). -/
def Obligations.ChecksumsOfNoBytes : Prop :=
  crc16 [] = 0xFFFF ∧ crc32 [] = 0 ∧
    ∀ d, crc32 d = run32 0xFFFFFFFF d ^^^ 0xFFFFFFFF

/-- Rules R97 and R107: both byte steps are linear over xor. (In the spec: R97, R107 are marked
derived and from general knowledge.) -/
def Obligations.ChecksumStepsAreLinear : Prop :=
  (∀ (r s : U16) (b c : Byte),
    crc16Step (r ^^^ s) (b ^^^ c) = crc16Step r b ^^^ crc16Step s c) ∧ crc16Step 0 0 = 0 ∧
  (∀ (r s : U32) (b c : Byte),
    crc32Step (r ^^^ s) (b ^^^ c) = crc32Step r b ^^^ crc32Step s c) ∧ crc32Step 0 0 = 0

/-- Rules R96 and R106: the table forms of both byte steps. (In the spec: R96, R106 are marked
derived.) -/
def Obligations.ChecksumTableForms : Prop :=
  (∀ (r : U16) (b : Byte),
    crc16Step r b = (r <<< 8) ^^^ crc16Step 0 ((r >>> 8).setWidth 8 ^^^ b)) ∧
  (∀ (r : U32) (b : Byte),
    crc32Step r b = (r >>> 8) ^^^ crc32Step 0 (r.setWidth 8 ^^^ b))

/-- Rule R100: the right-shifting loop with the reversed constant is the engine that is not
reflected, with the polynomial `0x04C11DB7`, on reversed registers and bytes. (In the spec: R100
is marked derived and from general knowledge.) -/
def Obligations.Crc32LoopIsTheReflectedEngine : Prop :=
  ∀ (r : U32) (b : Byte), crc32Step r b = (crc32MsbStep r.reverse b.reverse).reverse

/-- Rules R98(f) and R108(e): the register left by a sequence followed by its own checksum. (In
the spec: R98, R108 are marked derived.) (In the spec: R98, R108 are marked derived.) -/
def Obligations.ChecksumResidues : Prop :=
  (∀ d, crc16 (d ++ [(crc16 d).extractLsb' 8 8, (crc16 d).extractLsb' 0 8]) = 0) ∧
  (∀ d, d ≠ [] → crc32 (d ++ put32 (crc32 d)) = 0x2144DF1C)

/-- Rule R97: two inputs that differ in exactly one bit have different `CRC16` values. (In the
spec: R97 is marked derived and from general knowledge.) (In the spec: R97 is marked derived and
from general knowledge.) -/
def Obligations.Crc16DetectsOneBit : Prop :=
  ∀ (d : List Byte) (i k : Nat), i < d.length → k < 8 → crc16 (flipBit d i k) ≠ crc16 d

/-- Rule R107: two inputs that differ in exactly one bit have different `CRC32` values. (In the
spec: R107 is marked derived and from general knowledge.) (In the spec: R107 is marked derived and
from general knowledge.) -/
def Obligations.Crc32DetectsOneBit : Prop :=
  ∀ (d : List Byte) (i k : Nat), i < d.length → k < 8 → crc32 (flipBit d i k) ≠ crc32 d

/-! The header codec. -/

/-- `HDR` completes in every state: its status, and with status `OK` the decoded header, on the
response outputs; it changes nothing else (rules R118, R119, R77 and R78). (In the spec: R77, R78,
R120 are marked decision.) -/
def Obligations.HdrCompletesWithItsResult : Prop :=
  ∀ (b : List Byte) (s : State),
    ∃ t, exec (.hdr b) s = .next t ∧ t.rsp.valid = true ∧
      t.rsp.status = statusCode (hdrStatusOf (hdr s.cfg b)) ∧
      (outPins t).rspStatus = t.rsp.status ∧
      (∀ h, hdr s.cfg b = .ok h → t.rsp.header = h ∧ h = decodeHeader b) ∧
      t.cfg = s.cfg ∧ t.framer = s.framer ∧ t.events = s.events ∧ t.inputs = s.inputs

/-- Rules R111, R182 and R184: each outcome of `HDR` and its exact cause, each cause counting only when
no earlier one applies. -/
def Obligations.HdrFirstFailureDecides : Prop :=
  ∀ (c : Config) (b : List Byte),
    (hdr c b = .fail .length ↔ b.length < 14) ∧
    (hdr c b = .fail .magic ↔ 14 ≤ b.length ∧ le16 b 0 ≠ c.magic) ∧
    (hdr c b = .fail .version ↔ 14 ≤ b.length ∧ le16 b 0 = c.magic ∧
      versionOk c (byteAt b 2) (byteAt b 3) = false) ∧
    (hdr c b = .fail .payloadTooLarge ↔ 14 ≤ b.length ∧ le16 b 0 = c.magic ∧
      versionOk c (byteAt b 2) (byteAt b 3) = true ∧ c.maxPayload < le16 b 10) ∧
    (hdr c b = .fail .crc ↔ 14 ≤ b.length ∧ le16 b 0 = c.magic ∧
      versionOk c (byteAt b 2) (byteAt b 3) = true ∧ le16 b 10 ≤ c.maxPayload ∧
      crc16 (((b.take 14).set 12 0).set 13 0) ≠ le16 b 12)

/-- Rule R121: bytes after the fourteenth are ignored. (In the spec: R121 is marked decision.) -/
def Obligations.HdrIgnoresLaterBytes : Prop :=
  ∀ (c : Config) (b : List Byte), 14 ≤ b.length → hdr c b = hdr c (b.take 14)

/-- Rule R115: the two version policies. Under both a wrong major and a minor above `PROTO_MINOR`
fail; they differ only below `PROTO_MINOR`, and coincide when it is 0. (In the spec: R115 is
marked decision.) -/
def Obligations.VersionPoliciesCompared : Prop :=
  ∀ (c : Config) (maj min : Byte),
    (versionOk { c with versionPolicy := .exact } maj min = true ↔
      maj = c.protoMajor ∧ min = c.protoMinor) ∧
    (versionOk { c with versionPolicy := .minorAtMost } maj min = true ↔
      maj = c.protoMajor ∧ min.toNat ≤ c.protoMinor.toNat) ∧
    (maj ≠ c.protoMajor → versionOk c maj min = false) ∧
    (c.protoMinor.toNat < min.toNat → versionOk c maj min = false) ∧
    (versionOk { c with versionPolicy := .exact } maj min ≠
        versionOk { c with versionPolicy := .minorAtMost } maj min →
      min.toNat < c.protoMinor.toNat) ∧
    (c.protoMinor = 0 → versionOk { c with versionPolicy := .exact } maj min =
      versionOk { c with versionPolicy := .minorAtMost } maj min)

/-- Rules R71 and R99: encoding a header and decoding it gives its fields back with the checksum
filled in, and the result is accepted when magic, version and payload length are. (In the spec:
R71, R99 are marked derived.) -/
def Obligations.HeaderRoundTrip : Prop :=
  ∀ h : Header,
    decodeHeader (encodeHeader h) = { h with headerCrc16 := crc16 (headerBytes h) } ∧
    le16 (encodeHeader h) 12 = crc16 (((encodeHeader h).set 12 0).set 13 0) ∧
    ∀ c : Config, h.magic = c.magic → versionOk c h.protoMajor h.protoMinor = true →
      h.payloadLen ≤ c.maxPayload →
      hdr c (encodeHeader h) = .ok { h with headerCrc16 := crc16 (headerBytes h) }

/-- Rule R124: what a single changed bit makes of a valid header, byte by byte. (In the spec: R124
is marked derived.) -/
def Obligations.HeaderSingleBitVerdict : Prop :=
  ∀ (c : Config) (b b' : List Byte) (i k : Nat),
    headerValid c b → i < 14 → k < 8 → b' = flipBit (b.take 14) i k →
    ¬ headerValid c b' ∧
    (i < 2 → hdr c b' = .fail .magic) ∧
    (i = 2 → hdr c b' = .fail .version) ∧
    (i = 3 → hdr c b' =
      if c.versionPolicy = .exact ∨ c.protoMinor < byteAt b' 3 then .fail .version
      else .fail .crc) ∧
    (i = 10 ∨ i = 11 → hdr c b' =
      if c.maxPayload < le16 b' 10 then .fail .payloadTooLarge else .fail .crc) ∧
    (4 ≤ i ∧ i < 10 ∨ 12 ≤ i → hdr c b' = .fail .crc)

/-! The packet validator. -/

/-- `PKT` completes in every state: its status, and with `PKT_ERR_HEADER` the header's status, on
the response outputs; it changes nothing else (rules R131, R132, R136, R77 and R78). (In the spec:
R136, R77, R78 are marked decision.) -/
def Obligations.PktCompletesWithItsResult : Prop :=
  ∀ (b : List Byte) (s : State),
    ∃ t, exec (.pkt b) s = .next t ∧ t.rsp.valid = true ∧
      t.rsp.status = statusCode (pktStatusOf (pkt s.cfg b)) ∧
      (outPins t).rspStatus = t.rsp.status ∧
      (∀ e, pkt s.cfg b = .header e → hdr s.cfg b = .fail e ∧
        t.rsp.hdrStatus = statusCode (hdrErrorStatus e)) ∧
      t.cfg = s.cfg ∧ t.framer = s.framer ∧ t.events = s.events ∧ t.inputs = s.inputs

/-- Rules R127, R133 and R183: each outcome of `PKT` and its exact cause, the first that applies;
the header failure it reports is never the length failure. (In the spec: R126 is marked decision;
R127, R133 are marked derived.) -/
def Obligations.PktFirstFailureDecides : Prop :=
  ∀ (c : Config) (b : List Byte),
    (pkt c b = .tooShort ↔ b.length < 18) ∧
    (∀ e, pkt c b = .header e ↔ 18 ≤ b.length ∧ hdr c b = .fail e) ∧
    pkt c b ≠ .header .length ∧
    (pkt c b = .lenMismatch ↔ ∃ h, 18 ≤ b.length ∧ hdr c b = .ok h ∧
      b.length ≠ 14 + h.payloadLen.toNat + 4) ∧
    (pkt c b = .payloadCrc ↔ ∃ h, hdr c b = .ok h ∧ b.length = 14 + h.payloadLen.toNat + 4 ∧
      crc32 ((b.drop 14).take h.payloadLen.toNat) ≠ le32 b (14 + h.payloadLen.toNat))

/-- Rule R134: a packet is accepted exactly when it is one correctly constructed frame of an
accepted version and nothing more. (In the spec: R134 is marked derived.) -/
def Obligations.PktAcceptsExactlyBuiltFrames : Prop :=
  ∀ (c : Config) (b : List Byte),
    pkt c b = .ok ↔ ∃ (h : Header) (p : List Byte), h.magic = c.magic ∧
      versionOk c h.protoMajor h.protoMinor = true ∧ p.length ≤ c.maxPayload.toNat ∧
      b = buildFrame h p

/-- Rule R135: a single changed bit of a valid packet is noticed, in the header as a header
failure and nowhere as a length mismatch, behind it as a payload checksum failure. (In the spec:
R135 is marked derived.) -/
def Obligations.PacketSingleBitVerdict : Prop :=
  ∀ (c : Config) (b : List Byte) (i k : Nat), pkt c b = .ok → i < b.length → k < 8 →
    (i < 14 → ∃ e, pkt c (flipBit b i k) = .header e) ∧
    (14 ≤ i → pkt c (flipBit b i k) = .payloadCrc)

/-- Rule R137(c) to (e): bytes added to a valid packet, and bytes taken off its end. (In the spec:
R137 is marked derived.) -/
def Obligations.PacketWithWrongLength : Prop :=
  ∀ (c : Config) (b : List Byte), pkt c b = .ok →
    (∀ x, x ≠ [] → pkt c (b ++ x) = .lenMismatch) ∧
    (∀ n, n < b.length → pkt c (b.take n) = if n < 18 then .tooShort else .lenMismatch)

/-! The framer: its operations. -/

/-- Rule R141: `FINIT` completes in every state, clears the whole framer, emits nothing, and counts
nothing as lost. -/
def Obligations.FinitClearsTheFramer : Prop :=
  ∀ s : State, ∃ t, exec .finit s = .next t ∧
    (∀ a, Memory.read t.framer.buf a = 0) ∧ t.framer.wc = 0 ∧ t.framer.syncLossCount = 0 ∧
    t.framer.framesEmitted = 0 ∧ quiescent t.cfg t.framer = true ∧
    t.events = s.events ++ [.init] ∧ t.cfg = s.cfg ∧ t.inputs = s.inputs

/-- Rule R153: `FPUSH` completes from every state whose cursor is within `CAP`; it has then taken all
its input, one append a byte and in order, and no discard and no emission is left enabled. -/
def Obligations.FpushConsumesAllAndQuiesces : Prop :=
  ∀ (d : List Byte) (s : State), s.framer.wc ≤ s.cfg.cap →
    ∃ t es, exec (.fpush d) s = .next t ∧ t.events = s.events ++ es ∧ appendedBytes es = d ∧
      quiescent t.cfg t.framer = true ∧ t.cfg = s.cfg ∧ t.inputs = s.inputs

/-- What the two operations that return nothing to the requester leave on the response side: the port
shows `rsp_valid` 1 and `rsp_status` 0 after both (rules R77 and R78), and `FINIT` leaves every
response register as it was (rule R201). That rule R78 speaks of the port and rule R201 of what is
held behind it is the model's reading of the two, notes/assumptions/5.md. (In the spec: R77, R78,
R201 are marked decision.) -/
def Obligations.FinitAndFpushGiveNoResult : Prop :=
  ∀ s t : State,
    (exec .finit s = .next t → (outPins t).rspValid = true ∧ (outPins t).rspStatus = 0 ∧
      t.rsp.status = s.rsp.status ∧ t.rsp.hdrStatus = s.rsp.hdrStatus ∧
      t.rsp.value = s.rsp.value ∧ t.rsp.header = s.rsp.header ∧
      (outPins t).rspHdrStatus = s.rsp.hdrStatus ∧ (outPins t).rspValue = s.rsp.value ∧
      (outPins t).header = s.rsp.header) ∧
    (∀ d, exec (.fpush d) s = .next t →
      (outPins t).rspValid = true ∧ (outPins t).rspStatus = 0 ∧ t.rsp.status = 0)

/-- Rule R154: `FPUSH` is its loop, turn by turn. A discard state does one `discard1`, `Emit` one
`emit_frame`; a waiting state returns with no input left and else takes one byte, with the overflow
test before it; and the rest of the loop is `FPUSH` of the rest. -/
def Obligations.FpushIsItsLoop : Prop :=
  ∀ s : State, s.framer.wc ≤ s.cfg.cap →
    (fstate s.cfg (buffered s.framer) = .seekingMagic ∨
      fstate s.cfg (buffered s.framer) = .headerBad →
      ∀ d, exec (.fpush d) s = exec (.fpush d)
        (framerDid s (discard1 s.cfg s.framer) [.discard (Memory.read s.framer.buf 0)])) ∧
    (∀ flen, fstate s.cfg (buffered s.framer) = .emit flen →
      ∀ d, exec (.fpush d) s = exec (.fpush d)
        (framerDid s (emitFrame s.cfg s.framer flen) [.emit (delivery s.framer flen)])) ∧
    (quiescent s.cfg s.framer = true →
      exec (.fpush []) s = .next (complete s (rspNoStatus s.fresh)) ∧
      ∀ b d, exec (.fpush (b :: d)) s = exec (.fpush d)
        (if s.framer.wc = s.cfg.cap then
          framerDid s (bufAppend (discard1 s.cfg s.framer) b)
            [.discard (Memory.read s.framer.buf 0), .append b]
        else framerDid s (bufAppend s.framer b) [.append b]))

/-- A cursor above `CAP` is no state of the codec (rule R25): there `FPUSH` stops by name, and
nothing else does (the model's guard, notes/assumptions/9.md). -/
def Obligations.FpushFaultsOnlyAboveCapacity : Prop :=
  ∀ (i : Instr) (s : State) (f : Fault),
    exec i s = .fault f ↔
      f = .cursorBeyondCapacity ∧ s.cfg.cap < s.framer.wc ∧ ∃ d, i = .fpush d

/-- Rule R47: `BufAppend(v)` stores `v` at the cursor, moves it by one, and changes no other byte.
-/
def Obligations.BufAppendStoresAtTheCursor : Prop :=
  ∀ (F : Framer) (v : Byte), Memory.wf F.buf →
    (bufAppend F v).wc = F.wc + 1 ∧ Memory.read (bufAppend F v).buf F.wc = v ∧
    (∀ a, a ≠ F.wc → Memory.read (bufAppend F v).buf a = Memory.read F.buf a) ∧
    (bufAppend F v).syncLossCount = F.syncLossCount ∧
    (bufAppend F v).framesEmitted = F.framesEmitted ∧
    buffered (bufAppend F v) = buffered F ++ [v]

/-- Rule R48: `BufDropFront(n)` shifts the bytes behind the dropped ones to the front, keeps the bytes
at the new cursor and above, and does not touch the counters. -/
def Obligations.BufDropFrontShiftsTheRest : Prop :=
  ∀ (F : Framer) (n : Nat), Memory.wf F.buf → 1 ≤ n → n ≤ F.wc →
    (bufDropFront F n).wc = F.wc - n ∧
    (∀ j, j < F.wc - n → Memory.read (bufDropFront F n).buf j = Memory.read F.buf (j + n)) ∧
    (∀ a, F.wc - n ≤ a → Memory.read (bufDropFront F n).buf a = Memory.read F.buf a) ∧
    (bufDropFront F n).syncLossCount = F.syncLossCount ∧
    (bufDropFront F n).framesEmitted = F.framesEmitted ∧
    buffered (bufDropFront F n) = (buffered F).drop n

/-- The memory frame of `FPUSH`: it stores only where its appends reach, below the cursor plus the
operand's length, and never at or above `CAP` (rules R41, R47, R48 and R158). (In the spec: R158
is marked derived.) -/
def Obligations.FpushStoresOnlyBelowItsReach : Prop :=
  ∀ (d : List Byte) (s t : State), Memory.wf s.framer.buf → s.framer.wc ≤ s.cfg.cap →
    exec (.fpush d) s = .next t →
    ∀ a, s.framer.wc + d.length ≤ a ∨ s.cfg.cap ≤ a →
      Memory.read t.framer.buf a = Memory.read s.framer.buf a

/-- Rule R167: `FPUSH` of no bytes on a quiescent framer moves nothing, counts nothing and emits
nothing. (In the spec: R167 is marked derived.) -/
def Obligations.EmptyPushDoesNothing : Prop :=
  ∀ s : State, s.framer.wc ≤ s.cfg.cap → quiescent s.cfg s.framer = true →
    ∃ t, exec (.fpush []) s = .next t ∧ t.framer = s.framer ∧ t.events = s.events ∧
      t.cfg = s.cfg ∧ t.inputs = s.inputs

/-! The framer: its state machine. -/

/-- Rule R64: the magic test is on the first two bytes, the low byte of the magic first; a discard
for magic happens exactly when two bytes are there and it fails. (In the spec: R64 is marked
decision.) -/
def Obligations.MagicTestIsLowByteFirst : Prop :=
  ∀ (c : Config) (F : Framer),
    fstate c (buffered F) = .seekingMagic ↔
      2 ≤ F.wc ∧ ¬ (Memory.read F.buf 0 = c.magic.extractLsb' 0 8 ∧
        Memory.read F.buf 1 = c.magic.extractLsb' 8 8)

/-- Rules R147, R148 and R187: a header failure inside the framer is a version, payload length or
checksum failure, never a length or magic one, and never the defended capacity test. (In the spec:
R148 is marked derived.) -/
def Obligations.HeaderBadHasOneOfThreeCauses : Prop :=
  ∀ (c : Config) (q : List Byte), fstate c q = .headerBad →
    hdr c (q.take 14) = .fail .version ∨ hdr c (q.take 14) = .fail .payloadTooLarge ∨
      hdr c (q.take 14) = .fail .crc

/-- Rules R152 and R159: in a waiting state the buffer has room, by state; so the overflow policy
never acts, and a full buffer is in the state `Emit` or has a discard enabled. (In the spec: R152
is marked decision; R159 is marked derived.) -/
def Obligations.WaitingLeavesRoom : Prop :=
  ∀ (c : Config) (F : Framer),
    (fstate c (buffered F) = .filling → F.wc ≤ 1) ∧
    (fstate c (buffered F) = .awaitingHeader → F.wc ≤ 13) ∧
    (∀ n, fstate c (buffered F) = .awaitingFrame n → F.wc < n ∧ n ≤ c.cap) ∧
    (quiescent c F = true → F.wc < c.cap) ∧
    (∀ b data G es rest, turn c F (b :: data) = .again G es rest →
      es ≠ [.discard (Memory.read F.buf 0), .append b])

/-- Rules R26, R27 and R150: the counters of a pushed framer are the old ones plus the discards
and the frames of the push, modulo the counter width. (In the spec: R26, R27 are marked decision.)
-/
def Obligations.CountersCountDiscardsAndFrames : Prop :=
  ∀ (d : List Byte) (s t : State) (es : List FramerEvent), s.Inv →
    exec (.fpush d) s = .next t → t.events = s.events ++ es →
    t.framer.syncLossCount =
      truncN s.cfg.cntW (s.framer.syncLossCount + (discardedBytes es).length) ∧
    t.framer.framesEmitted =
      truncN s.cfg.cntW (s.framer.framesEmitted + (deliveries es).length)

/-- Rule R164: the work of one `FPUSH`: an append a byte, no more discards than bytes, and no more
emissions than an eighteenth of them. (In the spec: R164 is marked derived.) -/
def Obligations.FpushWorkIsBounded : Prop :=
  ∀ (d : List Byte) (s t : State) (es : List FramerEvent), s.framer.wc ≤ s.cfg.cap →
    exec (.fpush d) s = .next t → t.events = s.events ++ es →
    (appendedBytes es).length = d.length ∧
    (discardedBytes es).length ≤ s.framer.wc + d.length ∧
    18 * (deliveries es).length ≤ s.framer.wc + d.length

/-- Rules R134 and R165: every emitted frame is header-valid, of the length its header says, and
`PKT` can answer only `OK` or a payload checksum failure on it. (In the spec: R165, R134 are
marked derived.) -/
def Obligations.EmittedFramesAreHeaderValid : Prop :=
  ∀ (d : List Byte) (s t : State) (es : List FramerEvent),
    exec (.fpush d) s = .next t → t.events = s.events ++ es →
    ∀ f ∈ framesOf es, 18 ≤ f.length ∧
      (∃ h, hdr s.cfg f = .ok h ∧ f.length = 14 + h.payloadLen.toNat + 4) ∧
      (pkt s.cfg f = .ok ∨ pkt s.cfg f = .payloadCrc)

/-- Rule R168: what the status registers read while a frame is being delivered: the frames before
it, the bytes of the frame still counted by the cursor, and every discard that came before. (In
the spec: R168 is marked derived.) (In the spec: R168 is marked derived.) -/
def Obligations.DeliverySeesCountersBeforeIt : Prop :=
  ∀ (d : List Byte) (s t : State) (pre post : List FramerEvent) (x : Delivery), s.Inv →
    exec (.fpush d) s = .next t → t.events = s.events ++ (pre ++ .emit x :: post) →
    x.stFrames = truncN s.cfg.cntW (s.framer.framesEmitted + (deliveries pre).length) ∧
    x.stSyncLoss = truncN s.cfg.cntW (s.framer.syncLossCount + (discardedBytes pre).length) ∧
    x.stWc + (consumedBytes pre).length = s.framer.wc + (appendedBytes pre).length ∧
    x.frame.length ≤ x.stWc ∧ x.stWc ≤ s.cfg.cap

/-! The framer: streams. -/

/-- Rule R160: pushing a stream in pieces, empty ones allowed, leaves the same framer and the same
record of appends, discards and emissions as pushing it at once. With no piece at all nothing is
done, which is the same only from a quiescent state. (In the spec: R160 is marked derived.) -/
def Obligations.ChunkingChangesNothing : Prop :=
  ∀ (ds : List (List Byte)) (s : State), s.framer.wc ≤ s.cfg.cap →
    ds ≠ [] ∨ quiescent s.cfg s.framer = true →
    ∃ t u, execAll (ds.map .fpush) s = .next t ∧ exec (.fpush ds.flatten) s = .next u ∧
      t.framer = u.framer ∧ t.events = u.events ∧ t.cfg = u.cfg ∧ t.inputs = u.inputs

/-- Rule R151 (spec/92_eei_decisions.md D25): the byte-wise loop discards and emits what the
framer would that is given everything at once, and leaves the same bytes buffered. (In the spec:
R151 is marked decision.) -/
def Obligations.BytewiseLoopRefinesBulk : Prop :=
  ∀ (d : List Byte) (s t : State) (es : List FramerEvent), Memory.wf s.framer.buf →
    exec (.fpush d) s = .next t → t.events = s.events ++ es →
    bulk s.cfg (buffered s.framer ++ d) = (actionsOf es, buffered t.framer)

/-- Rule R161: since the last initialisation the bytes pushed are as many as those discarded,
those in emitted frames and those buffered together. (In the spec: R161 is marked derived.) -/
def Obligations.BytesAreConserved : Prop :=
  ∀ s : State, s.Inv →
    (appendedBytes (sinceInit s.events)).length =
      (discardedBytes (sinceInit s.events)).length +
      ((framesOf (sinceInit s.events)).map List.length).sum + s.framer.wc

/-- Rule R162: a stream in which no two adjacent bytes are the magic, pushed into an empty buffer,
emits nothing, loses all but its last byte, and keeps that one. (In the spec: R162 is marked
derived.) -/
def Obligations.StreamWithoutMagicIsLost : Prop :=
  ∀ (d : List Byte) (s : State), Memory.wf s.framer.buf → s.framer.wc = 0 →
    (∀ j, j + 1 < d.length → ¬ (byteAt d j = s.cfg.magic.extractLsb' 0 8 ∧
      byteAt d (j + 1) = s.cfg.magic.extractLsb' 8 8)) →
    ∃ t es, exec (.fpush d) s = .next t ∧ t.events = s.events ++ es ∧ framesOf es = [] ∧
      (discardedBytes es).length = d.length - 1 ∧ t.framer.wc = min d.length 1 ∧
      buffered t.framer = d.drop (d.length - 1) ∧
      t.framer.framesEmitted = s.framer.framesEmitted ∧
      (s.framer.syncLossCount = 0 →
        t.framer.syncLossCount = truncN s.cfg.cntW (d.length - 1))

/-- Rule R163: valid packets in noise without header-valid windows, pushed into an empty buffer,
are emitted exactly, in order; the bytes lost are the noise but for a suffix of the last run that
stays buffered, and of a last run that is not empty at least one byte stays. (In the spec: R163 is
marked derived and from general knowledge.) -/
def Obligations.FramesInNoiseAreRecovered : Prop :=
  ∀ (bs : List Burst) (tail : List Byte) (s : State),
    Memory.wf s.framer.buf → s.framer.wc = 0 → StreamClean s.cfg bs tail →
    ∃ t es, exec (.fpush (streamOf bs tail)) s = .next t ∧ t.events = s.events ++ es ∧
      framesOf es = bs.map Burst.frame ∧
      (discardedBytes es).length + t.framer.wc = noiseLength bs tail ∧
      (∃ lost, tail = lost ++ buffered t.framer) ∧ (tail ≠ [] → 1 ≤ t.framer.wc)

/-! The whole machine. -/

/-- Rules R38 and R201: every instance after reset, in the values the spec gives. (In the spec:
R38, R201 are marked decision.) -/
def Obligations.ResetValues : Prop :=
  ∀ c : Config,
    (State.resetOf c).framer.wc = 0 ∧ (State.resetOf c).framer.syncLossCount = 0 ∧
    (State.resetOf c).framer.framesEmitted = 0 ∧
    (∀ a, Memory.read (State.resetOf c).framer.buf a = 0) ∧
    fstate c (buffered (State.resetOf c).framer) = .filling ∧
    (State.resetOf c).rsp.valid = false ∧ (outPins (State.resetOf c)).frmValid = false ∧
    (outPins (State.resetOf c)).cmdReady = true ∧ (State.resetOf c).cfg = c ∧
    State.reset = State.resetOf Config.reference

/-- The invariant (rules R25, R28, R157 and R161) holds of every instance after reset. (In the
spec: R28, R157, R161 are marked derived.) (In the spec: R28, R157, R161 are marked derived.) -/
def Obligations.ResetMeetsTheInvariant : Prop :=
  ∀ c : Config, c.wf → (State.resetOf c).Inv

/-- Rules R28, R157, R158 and R161: every step keeps the invariant: the buffer canonical and
inside `CAP`, the cursor below `CAP`, the framer quiescent, and the books balanced byte by byte.
(In the spec: R28, R157, R158, R161 are marked derived.) -/
def Obligations.StepKeepsTheInvariant : Prop :=
  ∀ s t : State, s.Inv → step s = .next t → t.Inv

/-- Rules R171 and R188: nothing is fatal. In a state of the invariant every operation completes,
and a step never faults. (In the spec: R171 is marked derived.) -/
def Obligations.NothingIsFatal : Prop :=
  ∀ s : State, s.Inv → (∀ i, ∃ t, exec i s = .next t) ∧ ∀ f, step s ≠ .fault f

/-- Rules R34 and R54: no step changes a parameter. (In the spec: R54 is marked decision.) -/
def Obligations.ParametersNeverChange : Prop :=
  ∀ s t : State, step s = .next t → t.cfg = s.cfg

/-- Rule R200: hardware reset does what `FINIT` does to the framer, gives no response, and leaves
the codec idle. (In the spec: R200 is marked decision.) -/
def Obligations.HardwareResetInitialises : Prop :=
  ∀ (s : State) (a : Option Abandoned) (rest : List Input), s.inputs = .reset a :: rest →
    ∃ t u, step s = .next t ∧ exec .finit s = .next u ∧ t.framer = u.framer ∧
      t.rsp.valid = false ∧ t.inputs = rest ∧ t.cfg = s.cfg ∧
      (a = none → t.events = s.events ++ [.init])

/-- Rule R200, what a step records of an operation that a reset abandons. An `FPUSH` abandoned after `n`
turns, on the operand bytes it was given, leaves what those turns did, an initial part of what the
whole push does; then, exactly when the framer was delivering a frame, the first `k` bytes of that
frame, the next thing the push does; then the initialisation. Any other operation leaves the
initialisation alone. That the input says how far the operation came (`n` and `k`) is the model's
device, notes/assumptions/13.md. (In the spec: R200 is marked decision.) -/
def Obligations.AbandonedPushIsAFirstPart : Prop :=
  ∀ (s : State) (c : Command) (n k : Nat) (rest : List Input),
    s.inputs = .reset (some ⟨c, n, k⟩) :: rest →
    (c.op ≠ 5 → ∃ t, step s = .next t ∧ t.events = s.events ++ [.init]) ∧
    (c.op = 5 → ∀ (d : List Byte) (r : FramerRun), d = c.data.take c.len →
      r = turns s.cfg n s.framer d →
      ∃ t cut, step s = .next t ∧ t.events = s.events ++ r.events ++ cut ++ [.init] ∧
        (∀ flen, fstate s.cfg (buffered r.framer) = .emit flen →
          cut = [.cutFrame ((buffered r.framer).take (min k flen))] ∧
          r.events ++ [.emit (delivery r.framer flen)] <+: (push s.cfg s.framer d).events) ∧
        ((∀ flen, fstate s.cfg (buffered r.framer) ≠ .emit flen) → cut = []) ∧
        r.events <+: (push s.cfg s.framer d).events)

/-- Rule R119, and for the other pure operations rules R14, R91, R93, R103 and R132: a pure operation
answers the same whatever the framer holds, and leaves the framer and what it has done as they are. -/
def Obligations.PureOperationsIgnoreTheFramer : Prop :=
  ∀ (i : Instr) (s u : State), (∀ d, i ≠ .fpush d) → i ≠ .finit →
    s.cfg = u.cfg → s.fresh = u.fresh →
    ∃ t v, exec i s = .next t ∧ exec i u = .next v ∧ t.rsp = v.rsp ∧
      t.framer = s.framer ∧ v.framer = u.framer ∧ t.events = s.events ∧ v.events = u.events

/-- Rule R29: buffer bytes at and above the cursor are not observable: two states that differ in
nothing else still differ in nothing else after any operation. (In the spec: R29 is marked
decision.) -/
def Obligations.FreeBufferBytesAreInvisible : Prop :=
  ∀ (i : Instr) (s u t : State), Memory.wf s.framer.buf → Memory.wf u.framer.buf →
    SameState s u → exec i s = .next t →
    ∃ v, exec i u = .next v ∧ SameState t v ∧
      Memory.wf t.framer.buf ∧ Memory.wf v.framer.buf

/-! Codes, status registers and the frame port. -/

/-- Rule R76: the status codes, no two names with one code, and no reserved code among them. (In
the spec: R76 is marked decision.) (In the spec: R76 is marked decision.) -/
def Obligations.StatusCodesAreTheTable : Prop :=
  statusCode .ok = 0 ∧ statusCode .errArg = 1 ∧ statusCode .hdrErrLength = 2 ∧
  statusCode .hdrErrMagic = 3 ∧ statusCode .hdrErrVersion = 4 ∧
  statusCode .hdrErrPayloadTooLarge = 5 ∧ statusCode .hdrErrCrc = 6 ∧
  statusCode .pktErrTooShort = 8 ∧ statusCode .pktErrHeader = 9 ∧
  statusCode .pktErrLenMismatch = 10 ∧ statusCode .pktErrPayloadCrc = 11 ∧
  (∀ a b, statusCode a = statusCode b → a = b) ∧
  (∀ a, statusCode a ≠ 7 ∧ (statusCode a).toNat < 12)

/-- Rule R35: between operations every status and constant register reads a value its width holds.
(In the spec: R35 is marked decision.) -/
def Obligations.StatusRegistersFitTheirWidth : Prop :=
  ∀ (s : State) (r : StatusReg), s.Inv → readStatus s r < 2 ^ statusWidth s.cfg r

/-- Rule R78: a frame leaves on the frame port byte by byte in index order, its first and its last
byte marked and no other. (In the spec: R78 is marked decision.) -/
def Obligations.FrameBytesLeaveInOrder : Prop :=
  ∀ f : List Byte, (frmBeats f).map FrmBeat.data = f ∧
    ∀ i, (h : i < (frmBeats f).length) →
      ((frmBeats f)[i].first = true ↔ i = 0) ∧
      ((frmBeats f)[i].last = true ↔ i + 1 = f.length)
end

