-- ==== Sys2Proof/Laws/Engines.lean ====
section
/-! SUPPORT. Laws of the two checksum engines, the header codec and the packet validator: the running
registers over lists, and one inversion lemma for a header and one for a packet that is accepted. -/

namespace Sys2Proof.Machine

@[simp] theorem run16_nil (r : U16) : run16 r [] = r := rfl
@[simp] theorem run16_cons (r : U16) (b : Byte) (d : List Byte) :
    run16 r (b :: d) = run16 (crc16Step r b) d := rfl
theorem run16_append (r : U16) (a b : List Byte) : run16 r (a ++ b) = run16 (run16 r a) b :=
  List.foldl_append

@[simp] theorem run32_nil (r : U32) : run32 r [] = r := rfl
@[simp] theorem run32_cons (r : U32) (b : Byte) (d : List Byte) :
    run32 r (b :: d) = run32 (crc32Step r b) d := rfl
theorem run32_append (r : U32) (a b : List Byte) : run32 r (a ++ b) = run32 (run32 r a) b :=
  List.foldl_append

/-- A header is accepted exactly when all five checks pass, and it is then the decoded one
(rule R118). -/
theorem hdr_ok_iff (c : Config) (b : List Byte) (h : Header) :
    hdr c b = .ok h ↔
      headerSize ≤ b.length ∧ h = decodeHeader b ∧ h.magic = c.magic ∧
        versionOk c h.protoMajor h.protoMinor = true ∧ h.payloadLen ≤ c.maxPayload ∧
        crc16 (crcCopy b) = h.headerCrc16 := by
  unfold hdr
  constructor
  · intro hh
    split_ifs at hh with h1
    dsimp only at hh
    split_ifs at hh with h2 h3 h4 h5
    obtain rfl : decodeHeader b = h := by simpa using hh
    exact ⟨by omega, rfl, by simpa using h2, by simpa using h3, by simpa using h4,
      by simpa using h5⟩
  · rintro ⟨h1, rfl, h2, h3, h4, h5⟩
    rw [if_neg (by omega)]
    simp [h2, h3, h4, h5]

/-- The length of an accepted header's frame is at most `CAP` (rules R24, R67 and R116). -/
theorem frameLen_le_cap {c : Config} {b : List Byte} {h : Header} (hh : hdr c b = .ok h) :
    frameLen h ≤ c.cap := by
  have := ((hdr_ok_iff c b h).mp hh).2.2.2.2.1
  simp [BitVec.le_def] at this
  simp [frameLen, Config.cap]
  omega

/-- A packet is accepted exactly when its header is, its length is the header's and its payload
checksum is right (rule R131). -/
theorem pkt_ok_iff (c : Config) (b : List Byte) :
    pkt c b = .ok ↔ ∃ h, hdr c b = .ok h ∧ b.length = frameLen h ∧
      crc32 (payloadOf h b) = storedCrc32 h b := by
  unfold pkt
  constructor
  · intro hh
    split_ifs at hh with h1
    split at hh
    · simp at hh
    · rename_i h hx
      split_ifs at hh with h2 h3
      exact ⟨h, hx, by simpa using h2, by simpa using h3⟩
  · rintro ⟨h, h1, h2, h3⟩
    have : minPacket ≤ frameLen h := by simp [frameLen, minPacket]
    rw [if_neg (by omega)]
    simp [h1, h2, h3]

end Sys2Proof.Machine
end

