-- ==== Sys2Proof/Laws/State.lean ====
section
/-! SUPPORT. Laws about State: what each update does to each field, one lemma per field per update, so
that no later proof unfolds a record update; and the fields of the state after reset. -/

namespace Sys2Proof.Machine

@[simp] theorem complete_cfg (s : State) (r : Rsp) : (complete s r).cfg = s.cfg := rfl
@[simp] theorem complete_framer (s : State) (r : Rsp) : (complete s r).framer = s.framer := rfl
@[simp] theorem complete_rsp (s : State) (r : Rsp) : (complete s r).rsp = r := rfl
@[simp] theorem complete_inputs (s : State) (r : Rsp) : (complete s r).inputs = s.inputs := rfl
@[simp] theorem complete_events (s : State) (r : Rsp) : (complete s r).events = s.events := rfl
@[simp] theorem complete_fresh (s : State) (r : Rsp) : (complete s r).fresh = s.fresh + 1 := rfl

section
variable (s : State) (F : Framer) (es : List FramerEvent)
@[simp] theorem framerDid_cfg : (framerDid s F es).cfg = s.cfg := rfl
@[simp] theorem framerDid_framer : (framerDid s F es).framer = F := rfl
@[simp] theorem framerDid_rsp : (framerDid s F es).rsp = s.rsp := rfl
@[simp] theorem framerDid_inputs : (framerDid s F es).inputs = s.inputs := rfl
@[simp] theorem framerDid_events : (framerDid s F es).events = s.events ++ es := rfl
@[simp] theorem framerDid_fresh : (framerDid s F es).fresh = s.fresh := rfl
end

section
variable (F : Framer) (v : Byte) (n : Nat) (c : Config)
@[simp] theorem bufAppend_wc : (bufAppend F v).wc = F.wc + 1 := rfl
@[simp] theorem bufAppend_buf : (bufAppend F v).buf = Memory.write F.buf F.wc v := rfl
@[simp] theorem bufAppend_syncLossCount : (bufAppend F v).syncLossCount = F.syncLossCount := rfl
@[simp] theorem bufAppend_framesEmitted : (bufAppend F v).framesEmitted = F.framesEmitted := rfl
@[simp] theorem bufDropFront_wc : (bufDropFront F n).wc = F.wc - n := rfl
@[simp] theorem bufDropFront_syncLossCount :
    (bufDropFront F n).syncLossCount = F.syncLossCount := rfl
@[simp] theorem bufDropFront_framesEmitted :
    (bufDropFront F n).framesEmitted = F.framesEmitted := rfl
@[simp] theorem discard1_buf : (discard1 c F).buf = (bufDropFront F 1).buf := rfl
@[simp] theorem discard1_wc : (discard1 c F).wc = F.wc - 1 := rfl
@[simp] theorem discard1_syncLossCount :
    (discard1 c F).syncLossCount = truncN c.cntW (F.syncLossCount + 1) := rfl
@[simp] theorem discard1_framesEmitted : (discard1 c F).framesEmitted = F.framesEmitted := rfl
@[simp] theorem emitFrame_buf : (emitFrame c F n).buf = (bufDropFront F n).buf := rfl
@[simp] theorem emitFrame_wc : (emitFrame c F n).wc = F.wc - n := rfl
@[simp] theorem emitFrame_syncLossCount : (emitFrame c F n).syncLossCount = F.syncLossCount := rfl
@[simp] theorem emitFrame_framesEmitted :
    (emitFrame c F n).framesEmitted = truncN c.cntW (F.framesEmitted + 1) := rfl
end

@[simp] theorem initial_buf : Framer.initial.buf = [] := rfl
@[simp] theorem initial_wc : Framer.initial.wc = 0 := rfl
@[simp] theorem initial_syncLossCount : Framer.initial.syncLossCount = 0 := rfl
@[simp] theorem initial_framesEmitted : Framer.initial.framesEmitted = 0 := rfl

@[simp] theorem resetOf_cfg (c : Config) : (State.resetOf c).cfg = c := rfl
@[simp] theorem resetOf_framer (c : Config) : (State.resetOf c).framer = Framer.initial := rfl
@[simp] theorem resetOf_inputs (c : Config) : (State.resetOf c).inputs = [] := rfl
@[simp] theorem resetOf_events (c : Config) : (State.resetOf c).events = [] := rfl
@[simp] theorem resetOf_valid (c : Config) : (State.resetOf c).rsp.valid = false := rfl

@[simp] theorem rspFree_valid (n : Nat) (v : Bool) : (rspFree n v).valid = v := rfl
@[simp] theorem rspStatus_valid (n : Nat) (st : Status) : (rspStatus n st).valid = true := rfl
@[simp] theorem rspStatus_status (n : Nat) (st : Status) :
    (rspStatus n st).status = statusCode st := rfl
@[simp] theorem rspStatus_returnsStatus (n : Nat) (st : Status) :
    (rspStatus n st).returnsStatus = true := rfl
@[simp] theorem rspNoStatus_valid (n : Nat) : (rspNoStatus n).valid = true := rfl
@[simp] theorem rspNoStatus_status (n : Nat) : (rspNoStatus n).status = 0 := rfl
@[simp] theorem rspNoStatus_returnsStatus (n : Nat) : (rspNoStatus n).returnsStatus = false := rfl

section
variable (old : Rsp)
@[simp] theorem rspFinit_valid : (rspFinit old).valid = true := rfl
@[simp] theorem rspFinit_returnsStatus : (rspFinit old).returnsStatus = false := rfl
@[simp] theorem rspFinit_status : (rspFinit old).status = old.status := rfl
@[simp] theorem rspFinit_hdrStatus : (rspFinit old).hdrStatus = old.hdrStatus := rfl
@[simp] theorem rspFinit_value : (rspFinit old).value = old.value := rfl
@[simp] theorem rspFinit_header : (rspFinit old).header = old.header := rfl
end

/-- An operation that returns a status shows it. -/
theorem shownStatus_of_returns {r : Rsp} (h : r.returnsStatus = true) : shownStatus r = r.status := by
  simp [shownStatus, h]

/-- An operation that returns no status shows 0. -/
theorem shownStatus_of_not {r : Rsp} (h : r.returnsStatus = false) : shownStatus r = 0 := by
  simp [shownStatus, h]

@[simp] theorem outPins_rspStatus (s : State) : (outPins s).rspStatus = shownStatus s.rsp := rfl
@[simp] theorem outPins_rspValid (s : State) : (outPins s).rspValid = s.rsp.valid := rfl
@[simp] theorem outPins_rspHdrStatus (s : State) : (outPins s).rspHdrStatus = s.rsp.hdrStatus := rfl
@[simp] theorem outPins_rspValue (s : State) : (outPins s).rspValue = s.rsp.value := rfl
@[simp] theorem outPins_header (s : State) : (outPins s).header = s.rsp.header := rfl

end Sys2Proof.Machine
end

