-- ==== Sys2Proof/Laws/Memory.lean ====
section
/-! SUPPORT. Laws of the buffer memory: a read after a write, that every operation keeps the canonical
form and the bound on indices, that equal reads make equal memories, and what the copying loop of
`BufDropFront` leaves at every index. -/

namespace Sys2Proof.Machine

@[simp] theorem Memory.read_nil (a : Nat) : Memory.read [] a = 0#8 := rfl

theorem Memory.wf_nil : Memory.wf [] := by simp [Memory.wf]

theorem Memory.wf_tail {cell : Host.Cell} {m : Memory} (h : Memory.wf (cell :: m)) :
    Memory.wf m := by
  obtain ⟨hp, hz⟩ := h
  exact ⟨(List.pairwise_cons.mp hp).2, fun x hx => hz x (List.mem_cons_of_mem _ hx)⟩

/-- Below every listed index a memory reads as unlisted. -/
theorem Memory.read_of_lt {m : Memory} {a : Nat} (h : ∀ cell ∈ m, a < cell.1) :
    Memory.read m a = 0#8 := by
  induction m with
  | nil => rfl
  | cons cell m ih =>
    obtain ⟨k, v⟩ := cell
    have hk : a < k := h (k, v) (by simp)
    have : Memory.read m a = 0#8 := ih fun x hx => h x (by simp [hx])
    simp [Memory.read, this, Nat.ne_of_gt hk]

/-- A read after a write: the value written at its index, the old value elsewhere. -/
theorem Memory.read_write {m : Memory} (hm : Memory.wf m) (a : Nat) (v : Byte) (b : Nat) :
    Memory.read (Memory.write m a v) b = if b = a then v else Memory.read m b := by
  induction m with
  | nil =>
    by_cases hv : v = 0#8
    · simp [Memory.write, Memory.read, hv]
    · simp [Memory.write, Memory.read, hv, eq_comm]
  | cons cell m ih =>
    obtain ⟨k, w⟩ := cell
    have hlow : ∀ c ∈ m, k < c.1 := (List.pairwise_cons.mp hm.1).1
    have ih := ih (Memory.wf_tail hm)
    rcases Nat.lt_trichotomy a k with hak | hak | hak
    · have habove : Memory.read m a = 0#8 := Memory.read_of_lt fun c hc => by
        have := hlow c hc; omega
      by_cases hv : v = 0#8
      · by_cases hb : b = a
        · subst hb; simp [Memory.write, Memory.read, hak, hv, habove, Nat.ne_of_gt hak]
        · simp [Memory.write, hak, hv, hb]
      · by_cases hb : b = a
        · subst hb; simp [Memory.write, Memory.read, hak, hv]
        · simp [Memory.write, Memory.read, hak, hv, hb, Ne.symm hb]
    · subst hak
      have habove : Memory.read m a = 0#8 := Memory.read_of_lt hlow
      by_cases hv : v = 0#8
      · by_cases hb : b = a
        · subst hb; simp [Memory.write, hv, habove]
        · simp [Memory.write, Memory.read, hv, hb, Ne.symm hb]
      · by_cases hb : b = a
        · subst hb; simp [Memory.write, Memory.read, hv]
        · simp [Memory.write, Memory.read, hv, hb, Ne.symm hb]
    · have h1 : ¬ a < k := by omega
      have h2 : a ≠ k := by omega
      by_cases hb : b = k
      · subst hb
        simp [Memory.write, Memory.read, h1, h2, Ne.symm h2]
      · simp [Memory.write, Memory.read, h1, h2, Ne.symm hb, ih]

/-- The indices a write leaves listed. -/
theorem Memory.mem_write {m : Memory} {a : Nat} {v : Byte} {x : Host.Cell}
    (h : x ∈ Memory.write m a v) : x ∈ m ∨ (x = (a, v) ∧ v ≠ 0#8) := by
  induction m with
  | nil =>
    by_cases hv : v = 0#8 <;> simp_all [Memory.write]
  | cons cell m ih =>
    obtain ⟨k, w⟩ := cell
    unfold Memory.write at h
    split_ifs at h with h1 h2 h3 h4
    all_goals simp only [List.mem_cons] at h ⊢
    · exact .inl h
    · obtain h | h := h
      · exact .inr ⟨h, h2⟩
      · exact .inl h
    · exact .inl (.inr h)
    · obtain h | h := h
      · exact .inr ⟨h, h4⟩
      · exact .inl (.inr h)
    · obtain h | h := h
      · exact .inl (.inl h)
      · obtain h | h := ih h
        · exact .inl (.inr h)
        · exact .inr h

/-- A write keeps the canonical form. -/
theorem Memory.write_wf {m : Memory} (hm : Memory.wf m) (a : Nat) (v : Byte) :
    Memory.wf (Memory.write m a v) := by
  refine ⟨?_, fun x hx => ?_⟩
  · induction m with
    | nil => by_cases hv : v = 0#8 <;> simp [Memory.write, hv]
    | cons cell m ih =>
      obtain ⟨k, w⟩ := cell
      have hlow : ∀ c ∈ m, k < c.1 := (List.pairwise_cons.mp hm.1).1
      have htail := (List.pairwise_cons.mp hm.1).2
      unfold Memory.write
      split_ifs with h1 h2 h3 h4
      · exact hm.1
      · refine List.pairwise_cons.mpr ⟨fun c hc => ?_, hm.1⟩
        obtain rfl | hc := List.mem_cons.mp hc
        · exact h1
        · have := hlow c hc; simp only; omega
      · exact htail
      · refine List.pairwise_cons.mpr ⟨fun c hc => ?_, htail⟩
        have := hlow c hc; simp only; omega
      · refine List.pairwise_cons.mpr ⟨fun c hc => ?_, ih (Memory.wf_tail hm)⟩
        obtain hc | ⟨rfl, -⟩ := Memory.mem_write hc
        · exact hlow c hc
        · simp only; omega
  · obtain hx | ⟨rfl, hv⟩ := Memory.mem_write hx
    · exact hm.2 x hx
    · exact hv

/-- A write inside a bound keeps every listed index inside it. -/
theorem Memory.write_inside {m : Memory} {a cap : Nat} (v : Byte)
    (hm : ∀ cell ∈ m, cell.1 < cap) (ha : a < cap) :
    ∀ cell ∈ Memory.write m a v, cell.1 < cap := by
  intro x hx
  obtain hx | ⟨rfl, -⟩ := Memory.mem_write hx
  · exact hm x hx
  · exact ha

/-- In canonical form, equal memories are equal data. -/
theorem Memory.ext_of_read {m n : Memory} (hm : Memory.wf m) (hn : Memory.wf n)
    (h : ∀ a, Memory.read m a = Memory.read n a) : m = n := by
  induction m generalizing n with
  | nil =>
    cases n with
    | nil => rfl
    | cons cell n =>
      obtain ⟨k, v⟩ := cell
      have := h k
      have hv := hn.2 (k, v) (by simp)
      simp [Memory.read] at this
      exact absurd this.symm hv
  | cons cell m ih =>
    obtain ⟨k, v⟩ := cell
    have hv : v ≠ 0#8 := hm.2 (k, v) (by simp)
    have hmlow : ∀ c ∈ m, k < c.1 := (List.pairwise_cons.mp hm.1).1
    cases n with
    | nil =>
      have := h k
      simp [Memory.read] at this
      exact absurd this hv
    | cons cell' n =>
      obtain ⟨l, w⟩ := cell'
      have hw : w ≠ 0#8 := hn.2 (l, w) (by simp)
      have hnlow : ∀ c ∈ n, l < c.1 := (List.pairwise_cons.mp hn.1).1
      have hkl : k = l := by
        rcases Nat.lt_trichotomy k l with hlt | heq | hlt
        · have hz : Memory.read ((l, w) :: n) k = 0#8 := Memory.read_of_lt fun c hc => by
            obtain rfl | hc := List.mem_cons.mp hc
            · exact hlt
            · have := hnlow c hc; omega
          have := h k
          rw [hz] at this
          simp [Memory.read] at this
          exact absurd this hv
        · exact heq
        · have hz : Memory.read ((k, v) :: m) l = 0#8 := Memory.read_of_lt fun c hc => by
            obtain rfl | hc := List.mem_cons.mp hc
            · exact hlt
            · have := hmlow c hc; omega
          have := h l
          rw [hz] at this
          simp [Memory.read] at this
          exact absurd this.symm hw
      subst hkl
      have hvw : v = w := by simpa [Memory.read] using h k
      subst hvw
      have : m = n := ih (Memory.wf_tail hm) (Memory.wf_tail hn) fun a => by
        by_cases ha : k = a
        · subst ha
          rw [Memory.read_of_lt hmlow, Memory.read_of_lt hnlow]
        · simpa [Memory.read, ha] using h a
      rw [this]

/-- The copying loop keeps the canonical form. -/
theorem Memory.shiftDown_wf {m : Memory} (hm : Memory.wf m) (n count j : Nat) :
    Memory.wf (Memory.shiftDown n count j m) := by
  induction count generalizing j m with
  | zero => exact hm
  | succ count ih => exact ih (Memory.write_wf hm _ _) _

/-- The copying loop writes below `j + count` only. -/
theorem Memory.shiftDown_inside {m : Memory} {cap : Nat} (hm : ∀ cell ∈ m, cell.1 < cap)
    (n count j : Nat) (h : j + count ≤ cap) :
    ∀ cell ∈ Memory.shiftDown n count j m, cell.1 < cap := by
  induction count generalizing j m with
  | zero => exact hm
  | succ count ih =>
    exact ih (Memory.write_inside _ hm (by omega)) _ (by omega)

/-- What the copying loop leaves: at its indices the byte `n` places higher, elsewhere the old byte.
The order is ascending and `n` is at least 1, so no source has been overwritten when it is read. -/
theorem Memory.read_shiftDown {m : Memory} (hm : Memory.wf m) {n : Nat} (hn : 1 ≤ n)
    (count j a : Nat) :
    Memory.read (Memory.shiftDown n count j m) a =
      if j ≤ a ∧ a < j + count then Memory.read m (a + n) else Memory.read m a := by
  induction count generalizing j m with
  | zero => simp [Memory.shiftDown]
  | succ count ih =>
    rw [Memory.shiftDown, ih (Memory.write_wf hm _ _), Memory.read_write hm, Memory.read_write hm]
    by_cases h1 : a = j
    · subst h1
      simp
    · by_cases h2 : j + 1 ≤ a ∧ a < j + 1 + count
      · rw [if_pos h2, if_neg (by omega), if_pos (by omega)]
      · rw [if_neg h2, if_neg h1, if_neg (by omega)]

end Sys2Proof.Machine
end

