-- ==== Sys2Proof/Laws/Framer.lean ====
section
/-! SUPPORT. Laws of the framer: the list view of the buffer primitives (spec/10_state.md rule R29), what
the derived state says of the buffered bytes, the one inversion lemma of a turn, and that the loop
returns within its bound. -/

namespace Sys2Proof.Machine

/-! The list view. -/

@[simp] theorem length_buffered (F : Framer) : (buffered F).length = F.wc := by
  simp [buffered]

@[simp] theorem buffered_initial : buffered Framer.initial = [] := rfl

theorem getElem_buffered (F : Framer) (i : Nat) (h : i < (buffered F).length) :
    (buffered F)[i] = Memory.read F.buf i := by
  simp [buffered]

/-- On the list view `BufAppend(v)` is `buffered ++ [v]` (rule R47). -/
theorem buffered_bufAppend {F : Framer} (hF : Memory.wf F.buf) (v : Byte) :
    buffered (bufAppend F v) = buffered F ++ [v] := by
  refine List.ext_getElem (by simp) fun i h1 h2 => ?_
  rw [getElem_buffered, bufAppend_buf, Memory.read_write hF]
  by_cases hi : i = F.wc
  · subst hi; simp
  · have : i < F.wc := by simp at h1; omega
    simp [hi, this, getElem_buffered]

/-- On the list view `BufDropFront(n)` is `buffered[n .. wc)` (rule R48). -/
theorem buffered_bufDropFront {F : Framer} (hF : Memory.wf F.buf) {n : Nat} (hn : 1 ≤ n) :
    buffered (bufDropFront F n) = (buffered F).drop n := by
  refine List.ext_getElem (by simp) fun i h1 h2 => ?_
  have hi : i < F.wc - n := by simpa using h1
  simp [getElem_buffered, bufDropFront, Memory.read_shiftDown hF hn, hi, Nat.add_comm]

/-- The front byte of the buffer is the front byte of the list view. -/
theorem buffered_eq_cons {F : Framer} (h : 1 ≤ F.wc) :
    buffered F = Memory.read F.buf 0 :: (buffered F).drop 1 := by
  refine List.ext_getElem (by simp; omega) fun i h1 h2 => ?_
  cases i <;> simp [getElem_buffered]

/-- `discard1` drops the front byte of the list view. -/
theorem buffered_discard1 {F : Framer} (hF : Memory.wf F.buf) (c : Config) :
    buffered (discard1 c F) = (buffered F).drop 1 :=
  buffered_bufDropFront hF (Nat.le_refl 1)

/-- `emit_frame` drops the frame from the front of the list view. -/
theorem buffered_emitFrame {F : Framer} (hF : Memory.wf F.buf) (c : Config) {n : Nat} (hn : 1 ≤ n) :
    buffered (emitFrame c F n) = (buffered F).drop n :=
  buffered_bufDropFront hF hn

/-! The derived state. -/

/-- A frame's length is at least that of a header and a trailer. -/
theorem minPacket_le_frameLen (h : Header) : minPacket ≤ frameLen h := by
  simp [minPacket, frameLen]

/-- What `fstate(q) = Emit(n)` says of `q`. -/
theorem fstate_emit {c : Config} {q : List Byte} {n : Nat} (h : fstate c q = .emit n) :
    n ≤ q.length ∧ n ≤ c.cap ∧ ∃ x, hdr c (q.take headerSize) = .ok x ∧ n = frameLen x := by
  unfold fstate at h
  split_ifs at h
  split at h
  · simp at h
  · rename_i x hx
    split_ifs at h with h1 h2
    simp only [FState.emit.injEq] at h
    exact ⟨by omega, by omega, x, hx, h.symm⟩

/-- A discard is enabled on two bytes or more only (rule R144). -/
theorem fstate_not_waiting_length {c : Config} {q : List Byte} (h : waiting (fstate c q) = false) :
    2 ≤ q.length := by
  by_contra hq
  have : fstate c q = .filling := by simp [fstate]; omega
  simp [this, waiting] at h

/-! One turn. -/

/-- The loop returns exactly in a waiting state with no input left (rule R153). -/
theorem turn_finished_iff (c : Config) (F : Framer) (data : List Byte) :
    turn c F data = .finished ↔ quiescent c F = true ∧ data = [] := by
  unfold turn quiescent
  cases fstate c (buffered F) <;> cases data <;>
    simp [discardTurn, emitTurn, inputTurn, waiting] <;> split <;> simp

/-- Everything a turn that does not return can do (rule R154). -/
theorem turn_again_cases {c : Config} {F G : Framer} {data rest : List Byte}
    {es : List FramerEvent} (h : turn c F data = .again G es rest) :
    ((fstate c (buffered F) = .seekingMagic ∨ fstate c (buffered F) = .headerBad) ∧
      G = discard1 c F ∧ es = [.discard (Memory.read F.buf 0)] ∧ rest = data) ∨
    (∃ n, fstate c (buffered F) = .emit n ∧
      G = emitFrame c F n ∧ es = [.emit (delivery F n)] ∧ rest = data) ∨
    (∃ b, quiescent c F = true ∧ data = b :: rest ∧ F.wc ≠ c.cap ∧
      G = bufAppend F b ∧ es = [.append b]) ∨
    (∃ b, quiescent c F = true ∧ data = b :: rest ∧ F.wc = c.cap ∧
      G = bufAppend (discard1 c F) b ∧ es = [.discard (Memory.read F.buf 0), .append b]) := by
  have input : inputTurn c F data = .again G es rest → waiting (fstate c (buffered F)) = true →
      (∃ b, quiescent c F = true ∧ data = b :: rest ∧ F.wc ≠ c.cap ∧
        G = bufAppend F b ∧ es = [.append b]) ∨
      (∃ b, quiescent c F = true ∧ data = b :: rest ∧ F.wc = c.cap ∧
        G = bufAppend (discard1 c F) b ∧ es = [.discard (Memory.read F.buf 0), .append b]) := by
    intro h hw
    cases data with
    | nil => simp [inputTurn] at h
    | cons b d =>
      unfold inputTurn at h
      split_ifs at h with hc <;> simp only [Turn.again.injEq] at h <;> obtain ⟨rfl, rfl, rfl⟩ := h
      · exact .inr ⟨b, hw, rfl, hc, rfl, rfl⟩
      · exact .inl ⟨b, hw, rfl, hc, rfl, rfl⟩
  unfold turn at h
  cases hf : fstate c (buffered F) with
  | seekingMagic =>
    simp only [hf, discardTurn, Turn.again.injEq] at h
    exact .inl ⟨.inl rfl, h.1.symm, h.2.1.symm, h.2.2.symm⟩
  | headerBad =>
    simp only [hf, discardTurn, Turn.again.injEq] at h
    exact .inl ⟨.inr rfl, h.1.symm, h.2.1.symm, h.2.2.symm⟩
  | emit n =>
    simp only [hf, emitTurn, Turn.again.injEq] at h
    exact .inr (.inl ⟨n, rfl, h.1.symm, h.2.1.symm, h.2.2.symm⟩)
  | filling => rw [hf] at h; exact .inr (.inr (input h (by rw [hf]; rfl)))
  | awaitingHeader => rw [hf] at h; exact .inr (.inr (input h (by rw [hf]; rfl)))
  | awaitingFrame n => rw [hf] at h; exact .inr (.inr (input h (by rw [hf]; rfl)))

/-- The measure every turn that does not return lowers (rule R164). -/
theorem turn_lowers_bound {c : Config} {F G : Framer} {data rest : List Byte}
    {es : List FramerEvent} (h : turn c F data = .again G es rest) :
    turnBound G rest < turnBound F data := by
  have hcap : 1 ≤ c.cap := by simp [Config.cap, headerSize]; omega
  have two (hw : waiting (fstate c (buffered F)) = false) : 2 ≤ F.wc := by
    simpa using fstate_not_waiting_length hw
  obtain ⟨hf, rfl, -, rfl⟩ | ⟨n, hf, rfl, -, rfl⟩ | ⟨b, -, rfl, -, rfl, -⟩ |
    ⟨b, -, rfl, hc, rfl, -⟩ := turn_again_cases h
  · have := two (by obtain hf | hf := hf <;> rw [hf] <;> rfl)
    simp [turnBound]; omega
  · have := two (by rw [hf]; rfl)
    obtain ⟨-, -, x, -, rfl⟩ := fstate_emit hf
    have := minPacket_le_frameLen x
    simp [turnBound, minPacket, headerSize, trailerSize] at *; omega
  · simp [turnBound]; omega
  · simp [turnBound]; omega

/-- The loop when its next turn returns. -/
theorem turns_of_finished {c : Config} {F : Framer} {data : List Byte}
    (h : turn c F data = .finished) (n : Nat) :
    turns c (n + 1) F data = { framer := F, events := [], rest := data, returned := true } := by
  simp [turns, h]

/-- The loop when its next turn does something. -/
theorem turns_of_again {c : Config} {F G : Framer} {data rest : List Byte} {es : List FramerEvent}
    (h : turn c F data = .again G es rest) (n : Nat) :
    turns c (n + 1) F data =
      { framer := (turns c n G rest).framer
        events := es ++ (turns c n G rest).events
        rest := (turns c n G rest).rest
        returned := (turns c n G rest).returned } := by
  simp [turns, h]

/-- With turns enough the loop returns, quiescent and with no input left (rules R153 and R164). -/
theorem turns_return {c : Config} {F : Framer} {data : List Byte} {n : Nat}
    (h : turnBound F data ≤ n) :
    (turns c n F data).returned = true ∧ (turns c n F data).rest = [] ∧
      quiescent c (turns c n F data).framer = true := by
  induction n generalizing F data with
  | zero => simp [turnBound] at h
  | succ n ih =>
    unfold turns
    cases ht : turn c F data with
    | finished =>
      obtain ⟨hq, rfl⟩ := (turn_finished_iff c F data).mp ht
      exact ⟨rfl, rfl, hq⟩
    | again G es rest =>
      have := turn_lowers_bound ht
      exact ih (by omega)

/-- More turns than a loop that has returned needs change nothing. -/
theorem turns_of_returned {c : Config} {F : Framer} {data : List Byte} {n m : Nat} (hnm : n ≤ m)
    (h : (turns c n F data).returned = true) : turns c m F data = turns c n F data := by
  induction n generalizing F data m with
  | zero => simp [turns] at h
  | succ n ih =>
    obtain ⟨m, rfl⟩ : ∃ k, m = k + 1 := ⟨m - 1, by omega⟩
    unfold turns at h ⊢
    cases ht : turn c F data with
    | finished => rfl
    | again G es rest =>
      simp only [ht] at h ⊢
      rw [ih (by omega) h]

/-- A property of framers that every turn keeps holds after any number of turns: the one induction
over the loop. -/
theorem turns_keep {c : Config} {P : Framer → List FramerEvent → List Byte → Prop}
    (step : ∀ F es data G es' rest, P F es data → turn c F data = .again G es' rest →
      P G (es ++ es') rest)
    (n : Nat) {F : Framer} {es : List FramerEvent} {data : List Byte} (h : P F es data) :
    P (turns c n F data).framer (es ++ (turns c n F data).events) (turns c n F data).rest := by
  induction n generalizing F es data with
  | zero => simpa [turns] using h
  | succ n ih =>
    unfold turns
    cases ht : turn c F data with
    | finished => simpa using h
    | again G es' rest =>
      have := ih (step F es data G es' rest h ht)
      simpa [List.append_assoc] using this

end Sys2Proof.Machine
end

