-- ==== Sys2Proof/Laws/Exec.lean ====
section
/-! SUPPORT. Laws of the meanings, the decoder and a step: what each answers, once. -/

namespace Sys2Proof.Machine

@[simp] theorem exec_crc16 (d : List Byte) (s : State) :
    exec (.crc16 d) s = .next (complete s (rspCrc16 s.fresh (crc16 d))) := rfl
@[simp] theorem exec_crc32 (d : List Byte) (s : State) :
    exec (.crc32 d) s = .next (complete s (rspCrc32 s.fresh (crc32 d))) := rfl
@[simp] theorem exec_hdr (d : List Byte) (s : State) :
    exec (.hdr d) s = .next (complete s (rspHdr s.fresh (hdr s.cfg d))) := rfl
@[simp] theorem exec_pkt (d : List Byte) (s : State) :
    exec (.pkt d) s = .next (complete s (rspPkt s.fresh (pkt s.cfg d))) := rfl
@[simp] theorem exec_finit (s : State) :
    exec .finit s =
      .next (complete (framerDid s Framer.initial [.init]) (rspFinit s.rsp)) := rfl

/-- Within the cursor's bound `FPUSH` answers the state its loop leaves. -/
theorem exec_fpush {s : State} (h : s.framer.wc ≤ s.cfg.cap) (d : List Byte) :
    exec (.fpush d) s =
      .next (complete (framerDid s (push s.cfg s.framer d).framer (push s.cfg s.framer d).events)
        (rspNoStatus s.fresh)) := by
  simp [exec, execFpush, Nat.not_lt.mpr h]

/-- The loop of `FPUSH` returns, quiescent and with no input left (rule R153). -/
theorem push_returns (c : Config) (F : Framer) (d : List Byte) :
    (push c F d).returned = true ∧ (push c F d).rest = [] ∧
      quiescent c (push c F d).framer = true :=
  turns_return (Nat.le_refl _)

/-- With nothing pending a step idles. -/
theorem step_idle {s : State} (h : s.inputs = []) : step s = .next (idle s) := by
  simp [step, takeInput, h]

/-- With a command pending a step runs it. -/
theorem step_command {s : State} {c : Command} {rest : List Input}
    (h : s.inputs = .command c :: rest) : step s = runCommand c { s with inputs := rest } := by
  simp [step, takeInput, h]

/-- With a reset pending a step resets. -/
theorem step_reset {s : State} {a : Option Abandoned} {rest : List Input}
    (h : s.inputs = .reset a :: rest) :
    step s = .next (hardwareReset a { s with inputs := rest }) := by
  simp [step, takeInput, h]

section
variable (a : Option Abandoned) (s : State)
@[simp] theorem hardwareReset_cfg : (hardwareReset a s).cfg = s.cfg := rfl
@[simp] theorem hardwareReset_framer : (hardwareReset a s).framer = Framer.initial := rfl
@[simp] theorem hardwareReset_inputs : (hardwareReset a s).inputs = s.inputs := rfl
@[simp] theorem hardwareReset_valid : (hardwareReset a s).rsp.valid = false := rfl
@[simp] theorem hardwareReset_events : (hardwareReset a s).events =
    s.events ++ (eventsBeforeReset s.cfg s.framer a ++ [.init]) := rfl
end

/-- An abandoned operation other than `FPUSH` has left nothing in the record (rule R200). -/
theorem abandonedEvents_of_ne {c : Config} {F : Framer} {a : Abandoned}
    (h : a.command.op ≠ fpushSelector) : abandonedEvents c F a = [] := by
  simp [abandonedEvents, h]

end Sys2Proof.Machine
end

