-- ==== Sys2Proof/Laws/Fields.lean ====
section
/-! SUPPORT. Laws of the operand form: reading a field back from the bytes it was put into, and the
other way round; lengths; that a header is decoded from its first 14 bytes. -/

namespace Sys2Proof.Machine

@[simp] theorem length_put16 (v : U16) : (put16 v).length = 2 := rfl
@[simp] theorem length_put32 (v : U32) : (put32 v).length = 4 := rfl

@[simp] theorem byteAt_cons_zero (b : Byte) (l : List Byte) : byteAt (b :: l) 0 = b := rfl
@[simp] theorem byteAt_cons_succ (b : Byte) (l : List Byte) (k : Nat) :
    byteAt (b :: l) (k + 1) = byteAt l k := rfl

/-- Below the length a byte is the list's element. -/
theorem byteAt_eq_getElem (b : List Byte) (k : Nat) (h : k < b.length) : byteAt b k = b[k] := by
  simp [byteAt, h]

/-- Bytes past a prefix do not matter below its length. -/
theorem byteAt_take (b : List Byte) {k n : Nat} (h : k < n) : byteAt (b.take n) k = byteAt b k := by
  simp [byteAt, h]

theorem byteAt_append_left (a b : List Byte) {k : Nat} (h : k < a.length) :
    byteAt (a ++ b) k = byteAt a k := by
  simp [byteAt, List.getElem?_append_left, h]

theorem byteAt_append_right (a b : List Byte) (k : Nat) :
    byteAt (a ++ b) (a.length + k) = byteAt b k := by
  simp [byteAt, List.getElem?_append_right]

/-- A 16-bit field is read back from the two bytes it was put into (rule R44). -/
theorem le16_put16 (v : U16) (l : List Byte) : le16 (put16 v ++ l) 0 = v := by
  apply BitVec.eq_of_toNat_eq
  have := v.isLt
  simp [le16, put16, Nat.shiftRight_eq_div_pow]
  omega

/-- A 32-bit field is read back from the four bytes it was put into (rule R44). -/
theorem le32_put32 (v : U32) (l : List Byte) : le32 (put32 v ++ l) 0 = v := by
  apply BitVec.eq_of_toNat_eq
  have := v.isLt
  simp [le32, put32, Nat.shiftRight_eq_div_pow]
  omega

/-- Two bytes are put back from the 16-bit field read from them. -/
theorem put16_le16 (b : List Byte) (k : Nat) : put16 (le16 b k) = [byteAt b k, byteAt b (k + 1)] := by
  have h0 := (byteAt b k).isLt
  have h1 := (byteAt b (k + 1)).isLt
  simp only [put16, List.cons.injEq, and_true]
  constructor <;> apply BitVec.eq_of_toNat_eq <;>
    simp [le16, Nat.shiftRight_eq_div_pow] <;> omega

/-- Four bytes are put back from the 32-bit field read from them. -/
theorem put32_le32 (b : List Byte) (k : Nat) :
    put32 (le32 b k) = [byteAt b k, byteAt b (k + 1), byteAt b (k + 2), byteAt b (k + 3)] := by
  have h0 := (byteAt b k).isLt
  have h1 := (byteAt b (k + 1)).isLt
  have h2 := (byteAt b (k + 2)).isLt
  have h3 := (byteAt b (k + 3)).isLt
  simp only [put32, List.cons.injEq, and_true]
  refine ⟨?_, ?_, ?_, ?_⟩ <;> apply BitVec.eq_of_toNat_eq <;>
    simp [le32, Nat.shiftRight_eq_div_pow] <;> omega

theorem le16_take (b : List Byte) {k n : Nat} (h : k + 1 < n) : le16 (b.take n) k = le16 b k := by
  simp [le16, byteAt_take b h, byteAt_take b (Nat.lt_of_succ_lt h)]

/-- Only the first 14 bytes of an operand are decoded (rule R113). -/
theorem decodeHeader_take (b : List Byte) : decodeHeader (b.take headerSize) = decodeHeader b := by
  simp [decodeHeader, headerSize, le16_take, byteAt_take]

/-- The checksum is computed over the first 14 bytes only (rule R56). -/
theorem crcCopy_take (b : List Byte) : crcCopy (b.take headerSize) = crcCopy b := by
  simp [crcCopy, List.take_take]

@[simp] theorem length_headerBytes (h : Header) : (headerBytes h).length = headerSize := rfl

@[simp] theorem length_encodeHeader (h : Header) : (encodeHeader h).length = headerSize := rfl

@[simp] theorem length_buildFrame (h : Header) (p : List Byte) :
    (buildFrame h p).length = headerSize + p.length + trailerSize := by
  simp [buildFrame, trailerSize]
  omega

end Sys2Proof.Machine
end

