-- ==== Sys2Proof/Laws/PerInstr.lean ====
section
/-! SUPPORT. PerInstr: statements about every operation as syntax, one lemma per constructor. The
family `EncodedShape`: an operation's encoding carries exactly its operand, with its true length, and
a selector that selects it (spec/30_encoding.md rules R72 and R74). -/

namespace Sys2Proof.Laws.EncodedShape

/-- What the family states of an operation. -/
def Statement (i : Instr) : Prop :=
  (encode i).len = (encode i).data.length ∧ (encode i).data = i.operand ∧
    selected (encode i).op (encode i).data = some i

theorem crc16 (data : List Byte) : Statement (.crc16 data) := ⟨rfl, rfl, rfl⟩
theorem crc32 (data : List Byte) : Statement (.crc32 data) := ⟨rfl, rfl, rfl⟩
theorem hdr (data : List Byte) : Statement (.hdr data) := ⟨rfl, rfl, rfl⟩
theorem pkt (data : List Byte) : Statement (.pkt data) := ⟨rfl, rfl, rfl⟩
theorem finit : Statement .finit := ⟨rfl, rfl, rfl⟩
theorem fpush (data : List Byte) : Statement (.fpush data) := ⟨rfl, rfl, rfl⟩

end Sys2Proof.Laws.EncodedShape
end

