-- ==== Sys2Proof/Machine/Text.lean ====
section
/-! DEFINITION. Text: the lines in which the spec writes programs (spec/30_encoding.md rule R80): an
operation as its mnemonic and its operand bytes, a result behind `->`, a frame behind `EMIT`. Text
is no part of the hardware; no meaning uses it. -/

namespace Sys2Proof.Machine

/-- One hexadecimal digit. -/
def hexDigit (n : Nat) : Char :=
  ['0', '1', '2', '3', '4', '5', '6', '7', '8', '9', 'A', 'B', 'C', 'D', 'E', 'F'].getD n '0'

/-- The low `digits` hexadecimal digits of a number, the most significant first. -/
def hexText (digits v : Nat) : String :=
  String.ofList ((List.range digits).reverse.map fun k => hexDigit (v / 16 ^ k % 16))

/-- Bytes as two-digit numbers in index order, one behind each space. -/
def bytesText (bs : List Byte) : String :=
  bs.foldl (fun t b => t ++ " " ++ hexText 2 b.toNat) ""

/-- The mnemonic of an operation (rule R74). -/
def mnemonicOf : Instr → String
  | .crc16 _ => "CRC16"
  | .crc32 _ => "CRC32"
  | .hdr _ => "HDR"
  | .pkt _ => "PKT"
  | .finit => "FINIT"
  | .fpush _ => "FPUSH"

/-- The line of an operation; `FINIT` has no operand. -/
def operationLine (i : Instr) : String := mnemonicOf i ++ bytesText i.operand

/-- The line of an emitted frame. -/
def emitLine (frame : List Byte) : String := "EMIT" ++ bytesText frame

/-- The name of a status (rule R76). -/
def statusName : Status → String
  | .ok => "OK"
  | .errArg => "ERR_ARG"
  | .hdrErrLength => "HDR_ERR_LENGTH"
  | .hdrErrMagic => "HDR_ERR_MAGIC"
  | .hdrErrVersion => "HDR_ERR_VERSION"
  | .hdrErrPayloadTooLarge => "HDR_ERR_PAYLOAD_TOO_LARGE"
  | .hdrErrCrc => "HDR_ERR_CRC"
  | .pktErrTooShort => "PKT_ERR_TOO_SHORT"
  | .pktErrHeader => "PKT_ERR_HEADER"
  | .pktErrLenMismatch => "PKT_ERR_LEN_MISMATCH"
  | .pktErrPayloadCrc => "PKT_ERR_PAYLOAD_CRC"

/-- What a line shows behind the operation: `->` and the checksum or the status, or nothing for the two
operations that return nothing (rule R77). -/
def resultText (c : Config) : Instr → String
  | .crc16 d => " -> " ++ hexText 4 (crc16 d).toNat
  | .crc32 d => " -> " ++ hexText 8 (crc32 d).toNat
  | .hdr d => " -> " ++ statusName (hdrStatusOf (hdr c d))
  | .pkt d => " -> " ++ statusName (pktStatusOf (pkt c d))
  | .finit => ""
  | .fpush _ => ""

end Sys2Proof.Machine
end

