-- ==== Sys2Proof/Tests/Slice0.lean ====
section
/-! SUPPORT. Tests: words written out from the selector table, the spec's own vectors
(spec/95_test_vectors.md; the section or program is named at each), the ill-formed operation the check
refuses, and for every statement with hypotheses a concrete state and operands that meet them all. -/

namespace Sys2Proof.Tests.Slice0

-- One theorem at a time: many concurrent kernel evaluations need much memory.
set_option Elab.async false

open Sys2Proof Sys2Proof.Machine

/-! What the tests are made of. -/

/-- Frame A of spec/95_test_vectors.md. -/
def frameA : List Byte :=
  [0x32, 0x53, 0x00, 0x02, 0x11, 0x00, 0x00, 0x01, 0x01, 0x00, 0x00, 0x00, 0xF0, 0x21, 0, 0, 0, 0]

/-- Frame B of spec/95_test_vectors.md. -/
def frameB : List Byte :=
  [0x32, 0x53, 0x00, 0x02, 0x91, 0x00, 0x01, 0x00, 0x34, 0x12, 0x04, 0x00, 0xD3, 0xDC,
    0xDE, 0xAD, 0xBE, 0xEF, 0x5A, 0xA3, 0x9C, 0x7C]

/-- The header of minor version 1 of its vector H13. -/
def headerMinor1 : List Byte :=
  [0x32, 0x53, 0x00, 0x01, 0x11, 0x00, 0x00, 0x01, 0x01, 0x00, 0x00, 0x00, 0x0A, 0x59]

/-- The reference instance, one of the other policy, and one without payload (program P11). -/
def ref : Config := Config.reference
def ref' : Config := { Config.reference with versionPolicy := .minorAtMost }
def small : Config := { Config.reference with maxPayload := 0 }

/-- An instance after reset whose buffer has been filled with some bytes. -/
def holding (c : Config) (bs : List Byte) : State :=
  { State.resetOf c with framer := bs.foldl bufAppend Framer.initial }

/-- An instance after reset that has run one `FPUSH`. -/
def pushed (c : Config) (d : List Byte) : State :=
  let r := push c Framer.initial d
  complete (framerDid (State.resetOf c) r.framer r.events) (rspNoStatus 0)

/-- The reference instance with inputs pending. -/
def pending (is : List Input) : State := { State.reset with inputs := is }

/-- The next state, if there is one. -/
def nextOf : Host.Outcome State Fault Refusal → Option State
  | .next s => some s
  | .fault _ => none
  | .refused _ => none

/-- One field of the next state, if there is one. -/
def after {α : Type} (o : Host.Outcome State Fault Refusal) (f : State → α) : Option α :=
  (nextOf o).map f

/-! Well-formedness: an operand of 2^LEN_W bytes is refused, one byte less is not. -/

theorem test_wf_refuses_long_operands (d : List Byte) (h : d.length = 2 ^ 17) :
    Instr.wf 17 (.crc16 d) = false ∧ Instr.wf 17 (.crc32 d) = false ∧ Instr.wf 17 (.hdr d) = false ∧
    Instr.wf 17 (.pkt d) = false ∧ Instr.wf 17 (.fpush d) = false := by
  simp [Instr.wf, Instr.operand, h]

theorem test_wf_has_long_operand : ∃ d : List Byte, d.length = 2 ^ 17 :=
  ⟨List.replicate (2 ^ 17) 0, List.length_replicate⟩

theorem test_wf_accepts_the_longest (d : List Byte) (h : d.length = 2 ^ 17 - 1) :
    Instr.wf 17 (.fpush d) = true ∧ Instr.wf 17 .finit = true := by
  simp [Instr.wf, Instr.operand, h]

/-! Decoding: rule R74's selectors, an operand byte by byte, and every refusal. -/

theorem test_decode_crc16 : decode 32 ⟨0b000, 1, [0x31]⟩ = .instr (.crc16 [0x31]) := by decide
theorem test_decode_crc32 : decode 32 ⟨0b001, 0, []⟩ = .instr (.crc32 []) := by decide
theorem test_decode_hdr : decode 32 ⟨0b010, 2, [0x32, 0x53]⟩ = .instr (.hdr [0x32, 0x53]) := by
  decide
theorem test_decode_pkt : decode 32 ⟨0b011, 1, [0xAA]⟩ = .instr (.pkt [0xAA]) := by decide
theorem test_decode_finit : decode 32 ⟨0b100, 0, []⟩ = .instr .finit := by decide
theorem test_decode_fpush : decode 32 ⟨0b101, 2, [1, 2]⟩ = .instr (.fpush [1, 2]) := by decide
theorem test_decode_reserved :
    decode 32 ⟨0b110, 0, []⟩ = .rejected (.reservedSelector 6) ∧
    decode 32 ⟨0b111, 5, [1]⟩ = .rejected (.reservedSelector 7) := by decide
theorem test_decode_refusals :
    decode 17 ⟨0b000, 2 ^ 17, []⟩ = .rejected (.lengthTooWide (2 ^ 17)) ∧
    decode 17 ⟨0b001, 3, [1, 2]⟩ = .rejected (.operandMismatch 3 2) ∧
    decode 17 ⟨0b100, 1, [9]⟩ = .rejected (.finitOperand 1) := by decide

/-- A table word: `op` 101 in the first byte, the length 1 in the next four, then the byte AA. -/
theorem test_table_word : decodeTableWord 48 0xAA0000000105 = some (.fpush [0xAA]) := by
  decide

/-- A word issued at reset is the next thing a step runs: `CRC32` of no bytes gives 0. -/
theorem test_issued_word_runs :
    after (step (State.reset.withFetchWord 8 0b001)) (fun s => (s.rsp.value, s.rsp.valid)) =
      some (0, true) := by decide

/-! The six operations on the spec's vectors (spec/95_test_vectors.md). -/

/-- Section 2.1: ASCII "123456789". -/
theorem test_crc16_check_value :
    after (exec (.crc16 [0x31, 0x32, 0x33, 0x34, 0x35, 0x36, 0x37, 0x38, 0x39]) State.reset)
      (fun s => s.rsp.value) = some 0x29B1 := by decide +kernel

/-- Section 2.1: the first step from `FFFF` with byte 32. -/
theorem test_crc16_step : crc16Step 0xFFFF 0x32 = 0xF7E1 := by decide

/-- Section 2.2: the payload of frame B. -/
theorem test_crc32_payload :
    after (exec (.crc32 [0xDE, 0xAD, 0xBE, 0xEF]) State.reset) (fun s => s.rsp.value) =
      some 0x7C9CA35A := by decide +kernel

/-- Section 2.2: the first step with byte 31, before the final xor. -/
theorem test_crc32_step : crc32Step 0xFFFFFFFF 0x31 = 0x7C231048 := by decide

/-- Vector H24: the fields of frame B's header. -/
theorem test_hdr_fields :
    after (exec (.hdr (frameB.take 14)) State.reset) (fun s => (s.rsp.status, s.rsp.header)) =
      some (0, ⟨0x5332, 0, 2, 0x91, 0, 1, 0, 0x1234, 4, 0xDCD3⟩) := by decide +kernel

/-- Vectors H3, H9, H12, H16 and H20: one failure of each kind (EXACT). -/
theorem test_hdr_failures :
    [hdr ref (frameA.take 13), hdr ref ((frameA.set 1 0x33).set 2 1), hdr ref (frameA.set 3 1),
        hdr ref ((frameA.set 10 1).set 11 1), hdr ref (frameA.set 12 0xF1)] =
      [.fail .length, .fail .magic, .fail .version, .fail .payloadTooLarge, .fail .crc] := by
  decide +kernel

/-- Vectors K2 and K7: frame B is valid; the header is judged before the length. -/
theorem test_pkt_ok_and_header :
    after (exec (.pkt frameB) State.reset) (fun s => s.rsp.status) = some 0 ∧
    after (exec (.pkt (frameA.set 1 0x33 ++ [0])) State.reset)
      (fun s => (s.rsp.status, s.rsp.hdrStatus)) = some (9, 3) := by decide +kernel

/-- Vectors K5, K15, K10, K16 and K20. -/
theorem test_pkt_outcomes :
    [pkt ref (frameA.take 17), pkt ref (frameB.set 14 0xDF ++ [0]),
        pkt ref (frameA.take 14 ++ [0xFF, 0xFF, 0xFF, 0xFF]), pkt ref (frameB.set 14 0xDF),
        pkt ref [0x32, 0x53, 0x00, 0x02, 0x11, 0x00, 0x00, 0x01, 0x02, 0x00, 0x04, 0x00, 0xE1, 0x25,
          0, 0, 0, 0, 0x1C, 0xDF, 0x44, 0x21]] =
      [.tooShort, .lenMismatch, .payloadCrc, .payloadCrc, .ok] := by decide +kernel

/-- Program P9: `FINIT` between two pushes forgets the first. -/
theorem test_finit :
    after (exec .finit (holding ref (frameA.take 10))) (fun s => s.framer) =
      some Framer.initial := by decide

/-- After an operation with another status (`HDR` of no bytes, code 2) `FINIT` shows status 0 (rule R78)
and the register behind it is unchanged (rule R201). -/
theorem test_finit_status :
    after (execAll [.hdr []] State.reset) (fun s => (outPins s).rspStatus) = some 2 ∧
    after (execAll [.hdr [], .finit] State.reset)
      (fun s => ((outPins s).rspStatus, (outPins s).rspValid, s.rsp.status)) =
        some (0, true, 2) := by decide +kernel

/-- Program P2 in one push: the log of discards and frames, and the end state. -/
theorem test_fpush_two_frames_in_noise :
    after (exec (.fpush ([0xAA, 0x32, 0x32] ++ frameA ++ [0] ++ frameB ++ [0x32])) State.reset)
        (fun s => (actionsOf s.events, buffered s.framer, s.framer.syncLossCount,
          s.framer.framesEmitted)) =
      some ([.discard 0xAA, .discard 0x32, .discard 0x32, .emit frameA, .discard 0, .emit frameB],
        [0x32], 4, 2) := by decide +kernel

/-- Program P11, `MAX_PAYLOAD = 0`: the cursor reaches `CAP` and the header of B is noise. -/
theorem test_fpush_small_instance :
    after (exec (.fpush (frameA ++ frameB ++ frameA)) (State.resetOf small))
        (fun s => (framesOf s.events, s.framer.wc, s.framer.syncLossCount, s.framer.framesEmitted)) =
      some ([frameA, frameA], 0, 22, 2) := by decide +kernel

/-- The width of `WC` for `CAP = 274` is `ceil(log2 275) = 9`, and for `CAP = 18` it is 5. -/
theorem test_wc_width : statusWidth ref .wc = 9 ∧ statusWidth small .wc = 5 := by decide

/-- Section 2.8: `BufDropFront(1)` of `AA 32 53`, then `BufAppend(00)`; the byte left behind at index 2
is overwritten, so nothing is listed there. -/
theorem test_buffer_primitives :
    buffered (bufAppend (bufDropFront (holding ref [0xAA, 0x32, 0x53]).framer 1) 0) =
      [0x32, 0x53, 0] ∧
    Memory.wf (bufAppend (bufDropFront (holding ref [0xAA, 0x32, 0x53]).framer 1) 0).buf := by
  decide

/-- Lines of sections 2.1 and 1.9 and of program P2 as the spec writes them. -/
theorem test_text :
    operationLine (.crc16 [0x31]) ++ resultText ref (.crc16 [0x31]) = "CRC16 31 -> C782" ∧
    operationLine .finit = "FINIT" ∧ operationLine (.fpush [0x04, 0xD3]) = "FPUSH 04 D3" ∧
    emitLine [0x32, 0x53] = "EMIT 32 53" ∧
    resultText ref (.pkt (frameA ++ [0])) = " -> PKT_ERR_LEN_MISMATCH" := by decide +kernel

/-! Witnesses: the hypotheses of each statement, met together. -/

theorem witness_DecodeOfEncodeIsTheOperation :
    (Instr.hdr frameA).wf 32 = true ∧ 8 + 32 + 8 * (Instr.hdr frameA).operand.length ≤ 184 ∧
    Instr.finit.wf 17 = true ∧ 8 + 17 + 8 * Instr.finit.operand.length ≤ 25 := by decide

theorem witness_AcceptedCommandIsTheEncoding :
    decode 17 ⟨5, 2, [0xAA, 0x32]⟩ = .instr (.fpush [0xAA, 0x32]) ∧
    decode 17 ⟨4, 0, []⟩ = .instr .finit := by decide

theorem witness_ReservedSelectorsAnswerErrArg :
    ((⟨6, 0, []⟩ : Command).op = 6 ∧
      (pending [.command ⟨6, 0, []⟩]).inputs = [.command ⟨6, 0, []⟩]) ∧
    ((⟨7, 9, [1]⟩ : Command).op = 7 ∧
      (pending [.command ⟨7, 9, [1]⟩, .reset none]).inputs =
        .command ⟨7, 9, [1]⟩ :: [.reset none]) := by decide

theorem witness_StepRunsTheDecodedOperation :
    (pending [.command ⟨5, 18, frameA⟩, .reset none]).inputs =
      .command ⟨5, 18, frameA⟩ :: [.reset none] ∧
    decode State.reset.cfg.lenW ⟨5, 18, frameA⟩ = .instr (.fpush frameA) := by decide

theorem witness_StepIdlesOrRefusesByName :
    State.reset.inputs = [] ∧
    (∀ c ∈ [(⟨0, 2 ^ 32, []⟩ : Command), ⟨5, 2 ^ 32 - 1, [1]⟩, ⟨4, 1, [0]⟩],
      (pending [.command c]).inputs = [.command c] ∧ c.op.toNat < 6) ∧
    2 ^ State.reset.cfg.lenW ≤ (⟨0, 2 ^ 32, []⟩ : Command).len ∧
    ((⟨5, 2 ^ 32 - 1, [1]⟩ : Command).len < 2 ^ State.reset.cfg.lenW ∧ [(1 : Byte)].length ≠ 2 ^ 32 - 1) ∧
    (1 < 2 ^ State.reset.cfg.lenW ∧ [(0 : Byte)].length = 1) := by decide

theorem witness_ChecksumResidues : frameA ≠ [] := by decide

theorem witness_Crc16DetectsOneBit :
    (0 < frameA.length ∧ 0 < 8) ∧ (17 < frameA.length ∧ 7 < 8) := by decide

theorem witness_Crc32DetectsOneBit :
    (0 < frameB.length ∧ 0 < 8) ∧ (21 < frameB.length ∧ 7 < 8) := by decide

theorem witness_HdrCompletesWithItsResult :
    hdr State.reset.cfg frameA = .ok (decodeHeader frameA) := by decide +kernel

/-- Each outcome of `HdrFirstFailureDecides`, at 13 and 14 bytes and at payload lengths 256 and 257. -/
theorem witness_HdrFirstFailureDecides :
    ((frameA.take 13).length < 14) ∧
    (14 ≤ (frameA.take 14).length ∧ le16 (frameA.set 0 0x33) 0 ≠ ref.magic) ∧
    (le16 (frameA.set 3 1) 0 = ref.magic ∧
      versionOk ref (byteAt (frameA.set 3 1) 2) (byteAt (frameA.set 3 1) 3) = false) ∧
    (versionOk ref (byteAt frameA 2) (byteAt frameA 3) = true ∧
      ref.maxPayload < le16 ((frameA.set 10 1).set 11 1) 10) ∧
    (le16 (frameA.set 11 1) 10 ≤ ref.maxPayload ∧
      crc16 ((((frameA.set 11 1).take 14).set 12 0).set 13 0) ≠ le16 (frameA.set 11 1) 12) := by
  decide +kernel

theorem witness_HdrIgnoresLaterBytes : 14 ≤ (frameA.take 14).length ∧ 14 ≤ frameA.length := by
  decide

theorem witness_VersionPoliciesCompared :
    (1 : Byte) ≠ ref.protoMajor ∧ ref.protoMinor.toNat < (3 : Byte).toNat ∧
    versionOk { ref with versionPolicy := .exact } 0 1 ≠
      versionOk { ref with versionPolicy := .minorAtMost } 0 1 ∧
    ({ ref with protoMinor := 0 } : Config).protoMinor = 0 := by decide

/-- A header whose payload length is exactly `MAX_PAYLOAD`. -/
theorem witness_HeaderRoundTrip :
    let h : Header := { decodeHeader frameA with payloadLen := 256 }
    h.magic = ref.magic ∧ versionOk ref h.protoMajor h.protoMinor = true ∧
      h.payloadLen ≤ ref.maxPayload := by decide

/-- A valid header, and the clause of each changed byte at both ends of its range; the verdicts are those
of spec/95_test_vectors.md section 2.6. -/
theorem witness_HeaderSingleBitVerdict :
    headerValid ref frameA ∧ headerValid ref' frameA ∧
    ([(0, 0), (1, 7), (2, 0), (3, 1), (4, 0), (9, 7), (10, 7), (11, 0), (11, 1), (12, 0), (13, 7)].map
        fun p => hdr ref (flipBit (frameA.take 14) p.1 p.2)) =
      [.fail .magic, .fail .magic, .fail .version, .fail .version, .fail .crc, .fail .crc, .fail .crc,
        .fail .crc, .fail .payloadTooLarge, .fail .crc, .fail .crc] ∧
    ([0, 1, 2].map fun k => hdr ref' (flipBit (frameA.take 14) 3 k)) =
      [.fail .version, .fail .crc, .fail .version] := by
  refine ⟨⟨decodeHeader frameA, ?_⟩, ⟨decodeHeader frameA, ?_⟩, ?_⟩ <;> decide +kernel

theorem witness_PktCompletesWithItsResult :
    pkt State.reset.cfg (frameA.set 4 0x10) = .header .crc := by decide +kernel

/-- Each outcome of `PktFirstFailureDecides`, at 17 and 18 bytes. -/
theorem witness_PktFirstFailureDecides :
    (frameA.take 17).length < 18 ∧
    (18 ≤ (frameA.set 4 0x10).length ∧ hdr ref (frameA.set 4 0x10) = .fail .crc) ∧
    (18 ≤ (frameB.take 18).length ∧ hdr ref (frameB.take 18) = .ok (decodeHeader frameB) ∧
      (frameB.take 18).length ≠ 14 + (decodeHeader frameB).payloadLen.toNat + 4) ∧
    (hdr ref (frameB.set 21 0) = .ok (decodeHeader frameB) ∧
      (frameB.set 21 0).length = 14 + (decodeHeader frameB).payloadLen.toNat + 4 ∧
      crc32 (((frameB.set 21 0).drop 14).take 4) ≠ le32 (frameB.set 21 0) 18) := by decide +kernel

/-- Frame B is built from its fields, and the longest payload is allowed. -/
theorem witness_PktAcceptsExactlyBuiltFrames :
    pkt ref frameB = .ok ∧ (decodeHeader frameB).magic = ref.magic ∧
    versionOk ref (decodeHeader frameB).protoMajor (decodeHeader frameB).protoMinor = true ∧
    frameB = buildFrame (decodeHeader frameB) [0xDE, 0xAD, 0xBE, 0xEF] ∧
    (List.replicate 256 (0 : Byte)).length ≤ ref.maxPayload.toNat := by decide +kernel

theorem witness_PacketSingleBitVerdict :
    pkt ref frameB = .ok ∧
    (([(0, 0), (13, 7), (14, 0), (17, 7), (18, 0), (21, 7)] : List (Nat × Nat)).all fun p =>
      p.1 < frameB.length && p.2 < 8) = true ∧
    pkt ref (flipBit frameB 13 7) = .header .crc ∧ pkt ref (flipBit frameB 14 0) = .payloadCrc := by
  decide +kernel

theorem witness_PacketWithWrongLength :
    pkt ref frameB = .ok ∧ [(0 : Byte)] ≠ [] ∧ 0 < frameB.length ∧ 17 < frameB.length ∧
    18 < frameB.length ∧ 21 < frameB.length ∧ pkt ref (frameB.take 17) = .tooShort ∧
    pkt ref (frameB.take 18) = .lenMismatch ∧ pkt ref (frameB.take 21) = .lenMismatch := by
  decide +kernel

/-- The cursor at both ends of its range: after reset, and at `CAP`. -/
theorem witness_FpushConsumesAllAndQuiesces :
    State.reset.framer.wc ≤ State.reset.cfg.cap ∧
    ((holding small frameA).framer.wc = (holding small frameA).cfg.cap) := by decide

/-- Both operations answer a next state. -/
theorem witness_FinitAndFpushGiveNoResult :
    (∃ t, exec .finit State.reset = .next t) ∧ ∃ t, exec (.fpush frameA) State.reset = .next t :=
  ⟨⟨_, exec_finit _⟩, ⟨_, exec_fpush (by decide) _⟩⟩

/-- A state for each kind of turn: the two discards, the emission at `CAP`, and waiting. -/
theorem witness_FpushIsItsLoop :
    (∀ s ∈ [holding ref [0x32, 0x32], holding ref ((frameA.take 14).set 4 0x10), holding small frameA,
      holding ref [0x32]], s.framer.wc ≤ s.cfg.cap) ∧
    fstate ref (buffered (holding ref [0x32, 0x32]).framer) = .seekingMagic ∧
    fstate ref (buffered (holding ref ((frameA.take 14).set 4 0x10)).framer) = .headerBad ∧
    fstate small (buffered (holding small frameA).framer) = .emit 18 ∧
    quiescent ref (holding ref [0x32]).framer = true := by decide +kernel

/-- Both sides of `FpushFaultsOnlyAboveCapacity`: a cursor at `CAP` and one above it. -/
theorem witness_FpushFaultsOnlyAboveCapacity :
    (nextOf (exec (.fpush []) (holding small frameA))).isSome = true ∧
    (holding small (frameA ++ [0])).cfg.cap < (holding small (frameA ++ [0])).framer.wc ∧
    nextOf (exec (.fpush []) (holding small (frameA ++ [0]))) = none := by decide

theorem witness_BufAppendStoresAtTheCursor :
    Memory.wf (holding ref frameA).framer.buf ∧ Memory.wf Framer.initial.buf := by decide

theorem witness_BufDropFrontShiftsTheRest :
    Memory.wf (holding ref frameA).framer.buf ∧
    (1 ≤ 1 ∧ 1 ≤ (holding ref frameA).framer.wc ∧ 0 < (holding ref frameA).framer.wc - 1) ∧
    (1 ≤ 18 ∧ 18 ≤ (holding ref frameA).framer.wc) := by decide

/-- A push that emits and discards; one index is in the first class, one in the second. -/
theorem witness_FpushStoresOnlyBelowItsReach :
    ∃ t, Memory.wf (holding small [0xAA]).framer.buf ∧
      (holding small [0xAA]).framer.wc ≤ (holding small [0xAA]).cfg.cap ∧
      exec (.fpush frameA) (holding small [0xAA]) = .next t ∧ t.framer.framesEmitted = 1 ∧
      (holding small [0xAA]).framer.wc + frameA.length ≤ 19 ∧ (holding small [0xAA]).cfg.cap ≤ 18 :=
  ⟨_, by decide, by decide, exec_fpush (by decide) _, by decide +kernel,
    by decide, by decide⟩

theorem witness_EmptyPushDoesNothing :
    (holding ref (frameA.take 13)).framer.wc ≤ (holding ref (frameA.take 13)).cfg.cap ∧
    quiescent (holding ref (frameA.take 13)).cfg (holding ref (frameA.take 13)).framer = true := by
  decide

/-- The states of spec/95_test_vectors.md section 2.7, at the boundary of each. -/
theorem test_derived_states :
    [fstate ref [], fstate ref [0xAA], fstate ref [0x32, 0x53], fstate ref [0x32, 0x32],
        fstate ref (frameA.take 13), fstate ref (frameA.take 14), fstate ref (frameA.take 17),
        fstate ref frameA, fstate ref (frameB.take 21), fstate ref ((frameA.take 14).set 4 0x10)] =
      [.filling, .filling, .awaitingHeader, .seekingMagic, .awaitingHeader, .awaitingFrame 18,
        .awaitingFrame 18, .emit 18, .awaitingFrame 22, .headerBad] := by decide +kernel

/-- Both sides of `MagicTestIsLowByteFirst`: a discard for magic, and the magic in its place. -/
theorem witness_MagicTestIsLowByteFirst :
    fstate ref (buffered (holding ref [0x53, 0x32]).framer) = .seekingMagic ∧
    fstate ref (buffered (holding ref [0x32, 0x53]).framer) ≠ .seekingMagic := by decide

theorem witness_HeaderBadHasOneOfThreeCauses :
    fstate ref ((frameA.take 14).set 3 3) = .headerBad ∧
    fstate ref (frameA.set 11 2) = .headerBad ∧
    fstate ref ((frameA.take 14).set 4 0x10) = .headerBad := by decide +kernel

/-- Each waiting state with the most bytes it can have, and a turn that takes a byte. -/
theorem witness_WaitingLeavesRoom :
    fstate ref (buffered (holding ref [0x32]).framer) = .filling ∧
    fstate ref (buffered (holding ref (frameA.take 13)).framer) = .awaitingHeader ∧
    fstate small (buffered (holding small (frameA.take 17)).framer) = .awaitingFrame 18 ∧
    quiescent small (holding small (frameA.take 17)).framer = true ∧
    turn small (holding small (frameA.take 17)).framer [0, 1] =
      .again (holding small (frameA.take 17 ++ [0])).framer [.append 0] [1] := by decide +kernel

/-- The invariant holds after reset, in the reference and the small instance. -/
theorem reset_inv : (State.resetOf ref).Inv ∧ (State.resetOf small).Inv :=
  ⟨⟨by decide, ⟨by decide, by decide, by decide, by decide⟩, ⟨rfl, rfl, rfl⟩⟩,
    ⟨by decide, ⟨by decide, by decide, by decide, by decide⟩, ⟨rfl, rfl, rfl⟩⟩⟩

/-- It holds after a push that discarded, emitted and left bytes behind (a state that is not empty). -/
theorem pushed_inv : (pushed small (0xAA :: (frameA ++ [0x32, 0x53]))).Inv :=
  ⟨by decide, ⟨by decide +kernel, by decide +kernel, by decide +kernel, by decide +kernel⟩,
    ⟨by decide +kernel, by decide +kernel, by decide +kernel⟩⟩

theorem pushed_is_busy :
    (pushed small (0xAA :: (frameA ++ [0x32, 0x53]))).framer.wc = 2 ∧
    (pushed small (0xAA :: (frameA ++ [0x32, 0x53]))).framer.syncLossCount = 1 ∧
    (pushed small (0xAA :: (frameA ++ [0x32, 0x53]))).framer.framesEmitted = 1 := by decide +kernel

/-- A push from the reset state of the small instance whose record has a discard and a frame. -/
theorem witness_CountersCountDiscardsAndFrames :
    ∃ t es, (State.resetOf small).Inv ∧ exec (.fpush (0xAA :: frameA)) (State.resetOf small) = .next t ∧
      t.events = (State.resetOf small).events ++ es ∧ discardedBytes es = [0xAA] ∧
      framesOf es = [frameA] :=
  ⟨_, _, reset_inv.2, exec_fpush (by decide) _, rfl, by decide +kernel, by decide +kernel⟩

theorem witness_FpushWorkIsBounded :
    ∃ t es, (holding small frameA).framer.wc ≤ (holding small frameA).cfg.cap ∧
      exec (.fpush [1]) (holding small frameA) = .next t ∧
      t.events = (holding small frameA).events ++ es ∧ (deliveries es).length = 1 :=
  ⟨_, _, by decide, exec_fpush (by decide) _, rfl, by decide +kernel⟩

theorem witness_EmittedFramesAreHeaderValid :
    ∃ t es, exec (.fpush frameB) State.reset = .next t ∧ t.events = State.reset.events ++ es ∧
      frameB ∈ framesOf es :=
  ⟨_, _, exec_fpush (by decide) _, rfl, by decide +kernel⟩

/-- One byte of noise and a frame; the sink sees one byte lost and 18 buffered. -/
theorem witness_DeliverySeesCountersBeforeIt :
    ∃ t pre post, (State.resetOf small).Inv ∧
      exec (.fpush (0xAA :: frameA)) (State.resetOf small) = .next t ∧
      t.events = (State.resetOf small).events ++ (pre ++ .emit ⟨frameA, 18, 1, 0⟩ :: post) :=
  ⟨_, (push small Framer.initial (0xAA :: frameA)).events.dropLast, [], reset_inv.2,
    exec_fpush (by decide) _, by decide +kernel⟩

/-- Pieces with an empty one among them, and no piece at all in a quiescent state. -/
theorem witness_ChunkingChangesNothing :
    State.reset.framer.wc ≤ State.reset.cfg.cap ∧ [frameA.take 5, [], frameA.drop 5] ≠ [] ∧
    quiescent State.reset.cfg State.reset.framer = true := by decide

theorem witness_BytewiseLoopRefinesBulk :
    ∃ t es, Memory.wf (holding small [0xAA]).framer.buf ∧
      exec (.fpush frameA) (holding small [0xAA]) = .next t ∧
      t.events = (holding small [0xAA]).events ++ es ∧
      actionsOf es = [.discard 0xAA, .emit frameA] :=
  ⟨_, _, by decide, exec_fpush (by decide) _, rfl, by decide +kernel⟩

theorem witness_BytesAreConserved :
    (pushed small (0xAA :: (frameA ++ [0x32, 0x53]))).Inv := pushed_inv

/-- Program P4's stream, and the stream of no byte. -/
theorem witness_StreamWithoutMagicIsLost :
    Memory.wf State.reset.framer.buf ∧ State.reset.framer.wc = 0 ∧
    (∀ j < 4, ¬ (byteAt [1, 2, 3, 4, 5] j = State.reset.cfg.magic.extractLsb' 0 8 ∧
      byteAt [1, 2, 3, 4, 5] (j + 1) = State.reset.cfg.magic.extractLsb' 8 8)) ∧
    State.reset.framer.syncLossCount = 0 := by decide

/-- The stream of program P2: noise, A, noise, B, and a last byte. -/
theorem witness_FramesInNoiseAreRecovered :
    Memory.wf State.reset.framer.buf ∧ State.reset.framer.wc = 0 ∧
    StreamClean State.reset.cfg [⟨[0xAA, 0x32, 0x32], frameA⟩, ⟨[0], frameB⟩] [0x32] ∧ [(0x32 : Byte)] ≠ [] := by
  have bad {c : Config} {b : List Byte} {e : HdrError} (h : hdr c b = .fail e) :
      ¬ headerValid c b := fun ⟨x, hx⟩ => by rw [h] at hx; cases hx
  refine ⟨by decide, rfl, ⟨?_, by decide +kernel, ?_, by decide +kernel, ?_⟩, by decide⟩
  · intro k hk
    match k, hk with
    | 0, _ => exact bad (e := .magic) (by decide)
    | 1, _ => exact bad (e := .magic) (by decide)
    | 2, _ => exact bad (e := .magic) (by decide)
  · intro k hk
    match k, hk with
    | 0, _ => exact bad (e := .magic) (by decide)
  · intro k hk
    match k, hk with
    | 0, _ => exact bad (e := .length) (by decide)

theorem witness_ResetMeetsTheInvariant :
    Config.wf ref ∧ Config.wf { ref with cntW := 1, lenW := 17, maxPayload := 65535 } := by decide

/-- A state that is not empty, with a command pending; the step answers a next state. -/
theorem witness_StepKeepsTheInvariant :
    ∃ t, State.Inv { pushed small (0xAA :: (frameA ++ [0x32, 0x53])) with
        inputs := [.command ⟨5, 1, [0]⟩] } ∧
      step { pushed small (0xAA :: (frameA ++ [0x32, 0x53])) with
        inputs := [.command ⟨5, 1, [0]⟩] } = .next t := by
  have go : ∀ s : State, s.Inv → s.cfg.lenW = 32 → s.inputs = .command ⟨5, 1, [0]⟩ :: [] →
      ∃ t, s.Inv ∧ step s = .next t := by
    intro s h hl hi
    have hd : decode s.cfg.lenW ⟨5, 1, [0]⟩ = .instr (.fpush [0]) := by rw [hl]; decide
    rw [step_command hi]
    simp only [runCommand, hd]
    exact ⟨_, h, exec_fpush (s := { s with inputs := [] }) (Nat.le_of_lt h.framer.cursor) [0]⟩
  have hi : ∀ s : State, s.Inv → State.Inv { s with inputs := [.command ⟨5, 1, [0]⟩] } :=
    fun s h => ⟨h.config, h.framer, h.ledger⟩
  exact go _ (hi _ pushed_inv) rfl rfl

theorem witness_NothingIsFatal : (pushed small (0xAA :: (frameA ++ [0x32, 0x53]))).Inv := pushed_inv

theorem witness_ParametersNeverChange : ∃ t, step State.reset = .next t := ⟨_, step_idle rfl⟩

/-- A reset between operations, and one that cuts the delivery of frame A after three bytes. -/
theorem witness_HardwareResetInitialises :
    (pending [.reset none]).inputs = .reset none :: [] ∧
    (pending [.reset (some ⟨⟨5, 18, frameA⟩, 18, 3⟩)]).inputs =
      .reset (some ⟨⟨5, 18, frameA⟩, 18, 3⟩) :: [] := by decide

/-- Resets that abandon a `HDR`; a push of frame A with none, three and more than all of its bytes at
the sink; and one a turn earlier, when no frame is being delivered. -/
theorem witness_AbandonedPushIsAFirstPart :
    (∀ a ∈ [(⟨⟨2, 18, frameA⟩, 18, 3⟩ : Abandoned), ⟨encode (.fpush frameA), 18, 0⟩,
        ⟨encode (.fpush frameA), 18, 3⟩, ⟨encode (.fpush frameA), 18, 99⟩,
        ⟨encode (.fpush frameA), 17, 3⟩],
      (pending [.reset (some a)]).inputs = .reset (some ⟨a.command, a.turns, a.frameBytes⟩) :: []) ∧
    (2 : BitVec 3) ≠ 5 ∧ (encode (.fpush frameA)).op = 5 ∧
    frameA = (encode (.fpush frameA)).data.take (encode (.fpush frameA)).len ∧
    fstate ref (buffered (turns ref 18 Framer.initial frameA).framer) = .emit 18 ∧
    fstate ref (buffered (turns ref 17 Framer.initial frameA).framer) = .awaitingFrame 18 := by
  decide +kernel

/-- Rule R200: a reset after 18 turns, with three bytes of frame A at the sink, cuts the delivery
there; a turn earlier there is nothing to cut. -/
theorem test_reset_cuts_the_delivery :
    after (step (pending [.reset (some ⟨encode (.fpush frameA), 18, 3⟩)])) (fun s => s.events) =
      some (frameA.map .append ++ [.cutFrame [0x32, 0x53, 0x00], .init]) ∧
    after (step (pending [.reset (some ⟨encode (.fpush frameA), 17, 3⟩)])) (fun s => s.events) =
      some ((frameA.take 17).map .append ++ [.init]) ∧
    after (step (pending [.reset (some ⟨⟨2, 18, frameA⟩, 18, 3⟩)])) (fun s => s.events) =
      some [.init] := by decide +kernel

theorem witness_PureOperationsIgnoreTheFramer :
    (∀ d, Instr.hdr frameA ≠ .fpush d) ∧ Instr.hdr frameA ≠ .finit ∧
    State.reset.cfg = (holding ref frameB).cfg ∧ State.reset.fresh = (holding ref frameB).fresh ∧
    State.reset.framer ≠ (holding ref frameB).framer :=
  ⟨fun _ => by simp, by decide, rfl, rfl, by decide⟩

/-- Two states that differ in a byte above the cursor only. -/
theorem witness_FreeBufferBytesAreInvisible :
    let u := { State.reset with framer := { Framer.initial with buf := [(3, 0x77)] } }
    ∃ t, Memory.wf State.reset.framer.buf ∧ Memory.wf u.framer.buf ∧ SameState State.reset u ∧
      exec (.fpush [0x32]) State.reset = .next t ∧ State.reset ≠ u :=
  ⟨_, by decide, by decide, ⟨rfl, ⟨rfl, rfl, rfl, rfl⟩, rfl, rfl, rfl, rfl⟩, exec_fpush (by decide) _,
    by decide⟩

theorem witness_StatusRegistersFitTheirWidth :
    (pushed small (0xAA :: (frameA ++ [0x32, 0x53]))).Inv := pushed_inv

/-- Frame B leaves with byte 0 first and byte 21 last. -/
theorem witness_FrameBytesLeaveInOrder :
    0 < (frmBeats frameB).length ∧ 21 < (frmBeats frameB).length ∧
    (frmBeats frameB).map (fun b => (b.first, b.last)) =
      (true, false) :: List.replicate 20 (false, false) ++ [(false, true)] := by decide

end Sys2Proof.Tests.Slice0
end

section
/-! Laws of the record: each reading of the events over an append, and what counts as happening since
the last initialisation. -/

namespace Sys2Proof.Machine

@[simp] theorem appendedBytes_append (es fs : List FramerEvent) :
    appendedBytes (es ++ fs) = appendedBytes es ++ appendedBytes fs := by
  induction es with
  | nil => rfl
  | cons e es ih => cases e <;> simp [appendedBytes, ih]

@[simp] theorem consumedBytes_append (es fs : List FramerEvent) :
    consumedBytes (es ++ fs) = consumedBytes es ++ consumedBytes fs := by
  induction es with
  | nil => rfl
  | cons e es ih => cases e <;> simp [consumedBytes, ih]

@[simp] theorem discardedBytes_append (es fs : List FramerEvent) :
    discardedBytes (es ++ fs) = discardedBytes es ++ discardedBytes fs := by
  induction es with
  | nil => rfl
  | cons e es ih => cases e <;> simp [discardedBytes, ih]

@[simp] theorem deliveries_append (es fs : List FramerEvent) :
    deliveries (es ++ fs) = deliveries es ++ deliveries fs := by
  induction es with
  | nil => rfl
  | cons e es ih => cases e <;> simp [deliveries, ih]

/-- Events that initialise nothing are added to those since the last initialisation. -/
theorem sinceInit_append {fs : List FramerEvent} (h : .init ∉ fs) (es : List FramerEvent) :
    sinceInit (es ++ fs) = sinceInit es ++ fs := by
  induction es with
  | nil => cases fs <;> simp_all [sinceInit]
  | cons e es ih =>
    have hmem : FramerEvent.init ∈ e :: (es ++ fs) ↔ FramerEvent.init ∈ e :: es := by simp [h]
    simp only [List.cons_append, sinceInit, hmem, ih]
    split <;> rfl

/-- Right after an initialisation nothing has happened since. -/
@[simp] theorem sinceInit_append_init (es : List FramerEvent) : sinceInit (es ++ [.init]) = [] := by
  induction es with
  | nil => rfl
  | cons e es ih => simp [sinceInit, ih]

/-- Counting on from a count that has wrapped (rules R26 and R27). -/
theorem truncN_truncN_add_one (w v : Nat) : truncN w (truncN w v + 1) = truncN w (v + 1) := by
  simp [truncN]

end Sys2Proof.Machine
end

section
/-! The books of the framer (spec/44_stream_framer.md rule R161): one rule per event a turn records. -/

namespace Sys2Proof.Machine

section
variable {c : Config} {F : Framer} {es : List FramerEvent}

/-- The books open balanced, whatever was recorded before the initialisation. -/
theorem ledger_initial (c : Config) {es : List FramerEvent} (h : sinceInit es = []) :
    Ledger c Framer.initial es := by
  constructor <;> rw [h] <;>
    simp [appendedBytes, consumedBytes, discardedBytes, deliveries, truncN]

/-- An appended byte is entered as pushed and as buffered. -/
theorem Ledger.after_bufAppend (h : Ledger c F es) (hF : Memory.wf F.buf) (b : Byte) :
    Ledger c (bufAppend F b) (es ++ [.append b]) := by
  have hs : sinceInit (es ++ [.append b]) = sinceInit es ++ [.append b] :=
    sinceInit_append (by simp) es
  constructor <;> rw [hs]
  · simp [appendedBytes, consumedBytes, h.bytes, buffered_bufAppend hF]
  · simp [discardedBytes, h.lost]
  · simp [deliveries, h.frames]

/-- A discarded byte moves from the front of the buffer to the end of what was consumed. -/
theorem Ledger.after_discard1 (h : Ledger c F es) (hF : Memory.wf F.buf) (hw : 1 ≤ F.wc) :
    Ledger c (discard1 c F) (es ++ [.discard (Memory.read F.buf 0)]) := by
  have hs : sinceInit (es ++ [.discard (Memory.read F.buf 0)]) =
      sinceInit es ++ [.discard (Memory.read F.buf 0)] := sinceInit_append (by simp) es
  constructor <;> rw [hs]
  · have hfront : buffered F = [Memory.read F.buf 0] ++ buffered (discard1 c F) := by
      rw [buffered_discard1 hF]
      exact buffered_eq_cons hw
    simp [appendedBytes, consumedBytes, h.bytes, hfront]
  · simp [discardedBytes, h.lost, truncN_truncN_add_one]
  · simp [deliveries, h.frames]

/-- An emitted frame moves from the front of the buffer to the end of what was consumed. -/
theorem Ledger.after_emitFrame (h : Ledger c F es) (hF : Memory.wf F.buf) {n : Nat} (hn : 1 ≤ n) :
    Ledger c (emitFrame c F n) (es ++ [.emit (delivery F n)]) := by
  have hs : sinceInit (es ++ [.emit (delivery F n)]) = sinceInit es ++ [.emit (delivery F n)] :=
    sinceInit_append (by simp) es
  constructor <;> rw [hs]
  · have hfront : buffered F = (delivery F n).frame ++ buffered (emitFrame c F n) := by
      rw [buffered_emitFrame hF c hn]
      exact (List.take_append_drop n (buffered F)).symm
    simp [appendedBytes, consumedBytes, h.bytes, hfront]
  · simp [discardedBytes, h.lost]
  · simp [deliveries, h.frames, truncN_truncN_add_one]

end

end Sys2Proof.Machine
end

section
/-! The framer between two turns of the loop of rule R154: it may be full and need not be quiescent. -/

namespace Sys2Proof.Machine

/-- What rules R25 and R41 say of a framer at every turn: `FramerGood` without quiescence, and with
`CAP` itself allowed to the cursor. -/
structure FramerFits (c : Config) (F : Framer) : Prop where
  canonical : Memory.wf F.buf
  inside : ∀ cell ∈ F.buf, cell.1 < c.cap
  cursor : F.wc ≤ c.cap

theorem minPacket_le_cap (c : Config) : minPacket ≤ c.cap := by
  simp [minPacket, Config.cap]

/-- In a waiting state there is room for a byte (rule R159). -/
theorem wc_lt_cap_of_quiescent {c : Config} {F : Framer} (h : quiescent c F = true) :
    F.wc < c.cap := by
  have hcap : 18 ≤ c.cap := minPacket_le_cap c
  unfold quiescent fstate at h
  simp only [length_buffered] at h
  split_ifs at h with h1 h2 h3
  · omega
  · simp [waiting] at h
  · simp only [headerSize] at h3; omega
  · split at h
    · simp [waiting] at h
    · split_ifs at h with h4 h5
      · simp [waiting] at h
      · omega
      · simp [waiting] at h

theorem framerGood_iff {c : Config} {F : Framer} :
    FramerGood c F ↔ FramerFits c F ∧ quiescent c F = true :=
  ⟨fun h => ⟨⟨h.canonical, h.inside, Nat.le_of_lt h.cursor⟩, h.quiet⟩,
    fun ⟨h, hq⟩ => ⟨h.canonical, h.inside, wc_lt_cap_of_quiescent hq, hq⟩⟩

theorem framerFits_initial (c : Config) : FramerFits c Framer.initial :=
  ⟨Memory.wf_nil, by simp, Nat.zero_le _⟩

theorem quiescent_initial (c : Config) : quiescent c Framer.initial = true := by
  simp [quiescent, fstate, waiting]

section
variable {c : Config} {F : Framer}

theorem FramerFits.after_bufAppend (h : FramerFits c F) (hw : F.wc < c.cap) (b : Byte) :
    FramerFits c (bufAppend F b) :=
  ⟨Memory.write_wf h.canonical _ _, Memory.write_inside b h.inside hw, hw⟩

theorem FramerFits.after_bufDropFront (h : FramerFits c F) (n : Nat) :
    FramerFits c (bufDropFront F n) :=
  have hw : F.wc - n ≤ c.cap := Nat.le_trans (Nat.sub_le _ _) h.cursor
  ⟨Memory.shiftDown_wf h.canonical _ _ _,
    Memory.shiftDown_inside h.inside _ _ _ (by rwa [Nat.zero_add]), hw⟩

theorem FramerFits.after_discard1 (h : FramerFits c F) : FramerFits c (discard1 c F) :=
  have hd := h.after_bufDropFront 1
  ⟨hd.canonical, hd.inside, hd.cursor⟩

theorem FramerFits.after_emitFrame (h : FramerFits c F) (n : Nat) : FramerFits c (emitFrame c F n) :=
  have hd := h.after_bufDropFront n
  ⟨hd.canonical, hd.inside, hd.cursor⟩

end

/-- A turn keeps the framer inside `CAP`; the overflow turn of rule R152 does not occur. -/
theorem turn_keeps_fits {c : Config} {F G : Framer} {es : List FramerEvent}
    {data rest : List Byte} (hF : FramerFits c F) (h : turn c F data = .again G es rest) :
    FramerFits c G := by
  obtain ⟨-, rfl, -, -⟩ | ⟨n, -, rfl, -, -⟩ | ⟨b, -, -, hw, rfl, -⟩ | ⟨b, hq, -, hw, -, -⟩ :=
    turn_again_cases h
  · exact hF.after_discard1
  · exact hF.after_emitFrame n
  · exact hF.after_bufAppend (Nat.lt_of_le_of_ne hF.cursor hw) b
  · exact absurd hw (Nat.ne_of_lt (wc_lt_cap_of_quiescent hq))

/-- A turn keeps the books balanced. -/
theorem turn_keeps_ledger {c : Config} {F G : Framer} {es es' : List FramerEvent}
    {data rest : List Byte} (hF : Memory.wf F.buf) (hL : Ledger c F es)
    (h : turn c F data = .again G es' rest) : Ledger c G (es ++ es') := by
  obtain ⟨hf, rfl, rfl, -⟩ | ⟨n, hf, rfl, rfl, -⟩ | ⟨b, -, -, -, rfl, rfl⟩ |
    ⟨b, hq, -, hw, -, -⟩ := turn_again_cases h
  · have hwait : waiting (fstate c (buffered F)) = false := by
      obtain hf | hf := hf <;> rw [hf] <;> rfl
    have htwo : 2 ≤ F.wc := by simpa using fstate_not_waiting_length hwait
    exact hL.after_discard1 hF (by omega)
  · obtain ⟨-, -, x, -, rfl⟩ := fstate_emit hf
    exact hL.after_emitFrame hF (Nat.le_trans (by decide) (minPacket_le_frameLen x))
  · exact hL.after_bufAppend hF b
  · exact absurd hw (Nat.ne_of_lt (wc_lt_cap_of_quiescent hq))

/-- A push leaves a good framer (rules R153 and R158). -/
theorem push_framerGood {c : Config} {F : Framer} (hF : FramerFits c F) (d : List Byte) :
    FramerGood c (push c F d).framer :=
  have ⟨_, _, hq⟩ := push_returns c F d
  have hfits : FramerFits c (push c F d).framer :=
    turns_keep (P := fun F _ _ => FramerFits c F) (es := [])
      (fun _ _ _ _ _ _ h ht => turn_keeps_fits h ht) _ hF
  framerGood_iff.mpr ⟨hfits, hq⟩

/-- A push keeps the books balanced. -/
theorem push_keeps_ledger {c : Config} {F : Framer} {es : List FramerEvent}
    (hF : FramerFits c F) (hL : Ledger c F es) (d : List Byte) :
    Ledger c (push c F d).framer (es ++ (push c F d).events) :=
  (turns_keep (P := fun F es _ => FramerFits c F ∧ Ledger c F es)
    (fun _ _ _ _ _ _ h ht =>
      ⟨turn_keeps_fits h.1 ht, turn_keeps_ledger h.1.canonical h.2 ht⟩) _ ⟨hF, hL⟩).2

theorem framerGood_initial (c : Config) : FramerGood c Framer.initial :=
  framerGood_iff.mpr ⟨framerFits_initial c, quiescent_initial c⟩

end Sys2Proof.Machine
end

section
/-! What an operation and a step can answer, and the statements about every step. -/

namespace Sys2Proof.Machine

/-- Above `CAP` the model's guard stops `FPUSH` (notes/assumptions/9.md). -/
theorem exec_fpush_of_cap_lt {s : State} (h : s.cfg.cap < s.framer.wc) (d : List Byte) :
    exec (.fpush d) s = .fault .cursorBeyondCapacity := by
  simp [exec, execFpush, h]

/-- Everything an operation that completes can do: answer and nothing else, initialise the framer, or
push within the cursor's bound. -/
theorem exec_next_cases {i : Instr} {s t : State} (h : exec i s = .next t) :
    (∃ r, t = complete s r) ∨
    (i = .finit ∧ t = complete (framerDid s Framer.initial [.init]) (rspFinit s.rsp)) ∨
    (∃ d, i = .fpush d ∧ s.framer.wc ≤ s.cfg.cap ∧
      t = complete (framerDid s (push s.cfg s.framer d).framer (push s.cfg s.framer d).events)
        (rspNoStatus s.fresh)) := by
  cases i with
  | crc16 d => exact .inl ⟨_, by simpa using h.symm⟩
  | crc32 d => exact .inl ⟨_, by simpa using h.symm⟩
  | hdr d => exact .inl ⟨_, by simpa using h.symm⟩
  | pkt d => exact .inl ⟨_, by simpa using h.symm⟩
  | finit => exact .inr (.inl ⟨rfl, by simpa using h.symm⟩)
  | fpush d =>
    by_cases hc : s.cfg.cap < s.framer.wc
    · simp [exec_fpush_of_cap_lt hc] at h
    · have hw := Nat.not_lt.mp hc
      exact .inr (.inr ⟨d, rfl, hw, by simpa [exec_fpush hw] using h.symm⟩)

/-- A command that gives a next state was executed, or had a reserved selector. -/
theorem runCommand_next_cases {c : Command} {s t : State} (h : runCommand c s = .next t) :
    (∃ i, decode s.cfg.lenW c = .instr i ∧ exec i s = .next t) ∨
    (∃ op, decode s.cfg.lenW c = .rejected (.reservedSelector op) ∧ t = answerReserved s) := by
  unfold runCommand at h
  cases hd : decode s.cfg.lenW c with
  | instr i => exact .inl ⟨i, rfl, by simpa only [hd] using h⟩
  | rejected e =>
    cases e with
    | reservedSelector op => exact .inr ⟨op, rfl, by simpa [hd] using h.symm⟩
    | lengthTooWide len => simp [hd] at h
    | operandMismatch len supplied => simp [hd] at h
    | finitOperand len => simp [hd] at h

/-- Everything a step that gives a next state can do: idle, execute an operation, answer a reserved
selector, or reset. -/
theorem step_next_cases {s t : State} (h : step s = .next t) :
    (s.inputs = [] ∧ t = idle s) ∨
    (∃ c rest i, s.inputs = .command c :: rest ∧ decode s.cfg.lenW c = .instr i ∧
      exec i { s with inputs := rest } = .next t) ∨
    (∃ c rest op, s.inputs = .command c :: rest ∧
      decode s.cfg.lenW c = .rejected (.reservedSelector op) ∧
      t = answerReserved { s with inputs := rest }) ∨
    (∃ a rest, s.inputs = .reset a :: rest ∧ t = hardwareReset a { s with inputs := rest }) := by
  cases hi : s.inputs with
  | nil =>
    rw [step_idle hi, Host.Outcome.next.injEq] at h
    exact .inl ⟨rfl, h.symm⟩
  | cons input rest =>
    cases input with
    | command c =>
      rw [step_command hi] at h
      obtain ⟨i, hd, he⟩ | ⟨op, hd, ht⟩ := runCommand_next_cases h
      · exact .inr (.inl ⟨c, rest, i, rfl, hd, he⟩)
      · exact .inr (.inr (.inl ⟨c, rest, op, rfl, hd, ht⟩))
    | reset a =>
      rw [step_reset hi, Host.Outcome.next.injEq] at h
      exact .inr (.inr (.inr ⟨a, rest, rfl, h.symm⟩))

/-- An operation changes no parameter (rule R34). -/
theorem exec_cfg {i : Instr} {s t : State} (h : exec i s = .next t) : t.cfg = s.cfg := by
  obtain ⟨r, rfl⟩ | ⟨-, rfl⟩ | ⟨d, -, -, rfl⟩ := exec_next_cases h <;> rfl

/-- The invariant does not speak of the pending inputs. -/
theorem State.Inv.with_inputs {s : State} (h : s.Inv) (rest : List Input) :
    State.Inv { s with inputs := rest } :=
  ⟨h.config, h.framer, h.ledger⟩

/-- The invariant does not speak of the response. -/
theorem State.Inv.after_complete {s : State} (h : s.Inv) (r : Rsp) : (complete s r).Inv :=
  ⟨h.config, h.framer, h.ledger⟩

/-- An initialisation as the last thing done, as by `FINIT` or by reset, meets the invariant. -/
theorem framerDid_initial_inv {s : State} (h : s.cfg.wf) (es : List FramerEvent) :
    (framerDid s Framer.initial (es ++ [.init])).Inv where
  config := h
  framer := framerGood_initial _
  ledger := ledger_initial s.cfg (by simp [← List.append_assoc])

/-- Every operation keeps the invariant. -/
theorem exec_keeps_inv {i : Instr} {s t : State} (hs : s.Inv) (h : exec i s = .next t) : t.Inv := by
  obtain ⟨r, rfl⟩ | ⟨-, rfl⟩ | ⟨d, -, -, rfl⟩ := exec_next_cases h
  · exact hs.after_complete r
  · exact (framerDid_initial_inv hs.config []).after_complete _
  · have hF : FramerFits s.cfg s.framer := (framerGood_iff.mp hs.framer).1
    have hpushed : (framerDid s (push s.cfg s.framer d).framer (push s.cfg s.framer d).events).Inv :=
      ⟨hs.config, push_framerGood hF d, push_keeps_ledger hF hs.ledger d⟩
    exact hpushed.after_complete _

/-- Settles O50: an idle cycle and the answer to a reserved selector touch nothing the invariant
speaks of, an operation keeps it turn by turn, and reset establishes it anew. -/
theorem stepKeepsTheInvariant : Obligations.StepKeepsTheInvariant := by
  intro s t hs h
  obtain ⟨-, rfl⟩ | ⟨-, rest, i, -, -, hi⟩ | ⟨-, rest, -, -, -, rfl⟩ | ⟨a, rest, -, rfl⟩ :=
    step_next_cases h
  · exact hs.after_complete _
  · exact exec_keeps_inv (hs.with_inputs rest) hi
  · exact (hs.with_inputs rest).after_complete _
  · exact (framerDid_initial_inv (s := { s with inputs := rest }) hs.config _).after_complete _

/-- Settles O31: of the six operations only `FPUSH` has a guard, and it stops exactly above `CAP`. -/
theorem fpushFaultsOnlyAboveCapacity : Obligations.FpushFaultsOnlyAboveCapacity := by
  intro i s f
  constructor
  · intro h
    cases i with
    | crc16 d => simp at h
    | crc32 d => simp at h
    | hdr d => simp at h
    | pkt d => simp at h
    | finit => simp at h
    | fpush d =>
      by_cases hc : s.cfg.cap < s.framer.wc
      · rw [exec_fpush_of_cap_lt hc, Host.Outcome.fault.injEq] at h
        exact ⟨h.symm, hc, d, rfl⟩
      · simp [exec_fpush (Nat.not_lt.mp hc)] at h
  · rintro ⟨rfl, hc, d, rfl⟩
    exact exec_fpush_of_cap_lt hc d

/-- Settles O49: reset is the initialised framer with an empty record. -/
theorem resetMeetsTheInvariant : Obligations.ResetMeetsTheInvariant := by
  intro c hc
  exact ⟨hc, framerGood_initial c, ledger_initial c rfl⟩

/-- Settles O52, by what a step can do: none of it writes a parameter. -/
theorem parametersNeverChange : Obligations.ParametersNeverChange := by
  intro s t h
  obtain ⟨-, rfl⟩ | ⟨-, rest, i, -, -, hi⟩ | ⟨-, rest, -, -, -, rfl⟩ | ⟨a, rest, -, rfl⟩ :=
    step_next_cases h
  · rfl
  · exact exec_cfg (s := { s with inputs := rest }) hi
  · rfl
  · rfl

end Sys2Proof.Machine
end

section
/-! The buffer as memory: what each buffer primitive leaves at every index, and how far an `FPUSH`
stores (spec/20_memory.md rules R47 and R48). -/

namespace Sys2Proof.Machine

section
variable {F : Framer}

/-- A read after `BufAppend`: the appended byte at the old cursor, the old byte elsewhere. -/
theorem read_bufAppend (hF : Memory.wf F.buf) (v : Byte) (a : Nat) :
    Memory.read (bufAppend F v).buf a = if a = F.wc then v else Memory.read F.buf a :=
  Memory.read_write hF F.wc v a

/-- A read after `BufDropFront`: below the new cursor the byte `n` places higher, elsewhere the old
byte. -/
theorem read_bufDropFront (hF : Memory.wf F.buf) {n : Nat} (hn : 1 ≤ n) (a : Nat) :
    Memory.read (bufDropFront F n).buf a =
      if a < F.wc - n then Memory.read F.buf (a + n) else Memory.read F.buf a := by
  simpa [bufDropFront] using Memory.read_shiftDown hF hn (F.wc - n) 0 a

/-- A drop only moves bytes down, so it keeps what stands at the old cursor and above. -/
theorem read_bufDropFront_of_wc_le (hF : Memory.wf F.buf) {n : Nat} (hn : 1 ≤ n) {a : Nat}
    (ha : F.wc ≤ a) : Memory.read (bufDropFront F n).buf a = Memory.read F.buf a := by
  rw [read_bufDropFront hF hn, if_neg (by omega)]

end

/-- Settles O32, by the read after a write at the cursor. -/
theorem bufAppendStoresAtTheCursor : Obligations.BufAppendStoresAtTheCursor := by
  intro F v hF
  refine ⟨rfl, ?_, fun a ha => ?_, rfl, rfl, buffered_bufAppend hF v⟩
  · rw [read_bufAppend hF, if_pos rfl]
  · rw [read_bufAppend hF, if_neg ha]

/-- Settles O33, by what the copying loop leaves at each index on either side of the new cursor. -/
theorem bufDropFrontShiftsTheRest : Obligations.BufDropFrontShiftsTheRest := by
  intro F n hF hn _
  refine ⟨rfl, fun j hj => ?_, fun a ha => ?_, rfl, rfl, buffered_bufDropFront hF hn⟩
  · rw [read_bufDropFront hF hn, if_pos hj]
  · rw [read_bufDropFront hF hn, if_neg (Nat.not_lt.mpr ha)]

/-- What holds at every turn of an `FPUSH` that began at the framer `F₀`, for an index `a` out of its
reach: the appends still to come stop below `a` or below `CAP`, and `a` reads as at the start. -/
structure KeepsByte (c : Config) (F₀ : Framer) (a : Nat) (F : Framer) (rest : List Byte) :
    Prop where
  canonical : Memory.wf F.buf
  cursor : F.wc ≤ c.cap
  beyond : F.wc + rest.length ≤ a ∨ c.cap ≤ a
  same : Memory.read F.buf a = Memory.read F₀.buf a

section
variable {c : Config} {F₀ F G : Framer} {a : Nat} {data rest : List Byte}

theorem KeepsByte.wc_le (h : KeepsByte c F₀ a F rest) : F.wc ≤ a := by
  obtain ⟨-, hcap, hbeyond, -⟩ := h
  omega

theorem KeepsByte.after_bufDropFront (h : KeepsByte c F₀ a F rest) {n : Nat} (hn : 1 ≤ n) :
    KeepsByte c F₀ a (bufDropFront F n) rest where
  canonical := Memory.shiftDown_wf h.canonical _ _ _
  cursor := Nat.le_trans (Nat.sub_le _ _) h.cursor
  beyond := h.beyond.imp_left (Nat.le_trans (Nat.add_le_add_right (Nat.sub_le _ _) _))
  same := (read_bufDropFront_of_wc_le h.canonical hn h.wc_le).trans h.same

/-- The appended byte goes to the cursor, which is below `a` while there is input and room. -/
theorem KeepsByte.after_bufAppend {b : Byte} (h : KeepsByte c F₀ a F (b :: rest))
    (hw : F.wc < c.cap) : KeepsByte c F₀ a (bufAppend F b) rest := by
  obtain ⟨hwf, -, hbeyond, hsame⟩ := h
  rw [List.length_cons] at hbeyond
  have hne : a ≠ F.wc := by omega
  exact ⟨Memory.write_wf hwf _ _, hw, by rw [bufAppend_wc]; omega,
    by rw [read_bufAppend hwf, if_neg hne, hsame]⟩

/-- A turn stores nothing out of reach; the overflow turn of rule R152 does not occur. -/
theorem turn_keeps_byte {es : List FramerEvent} (h : KeepsByte c F₀ a F data)
    (ht : turn c F data = .again G es rest) : KeepsByte c F₀ a G rest := by
  obtain ⟨-, rfl, -, rfl⟩ | ⟨n, hf, rfl, -, rfl⟩ | ⟨b, -, rfl, hw, rfl, -⟩ | ⟨b, hq, -, hw, -, -⟩ :=
    turn_again_cases ht
  · have hd := h.after_bufDropFront (Nat.le_refl 1)
    exact ⟨hd.canonical, hd.cursor, hd.beyond, hd.same⟩
  · obtain ⟨-, -, x, -, rfl⟩ := fstate_emit hf
    have hd := h.after_bufDropFront (Nat.le_trans (by decide) (minPacket_le_frameLen x))
    exact ⟨hd.canonical, hd.cursor, hd.beyond, hd.same⟩
  · exact h.after_bufAppend (Nat.lt_of_le_of_ne h.cursor hw)
  · exact absurd hw (Nat.ne_of_lt (wc_lt_cap_of_quiescent hq))

end

/-- A push keeps every byte out of its reach. -/
theorem read_push {c : Config} {F : Framer} (hF : Memory.wf F.buf) (hw : F.wc ≤ c.cap)
    {d : List Byte} {a : Nat} (ha : F.wc + d.length ≤ a ∨ c.cap ≤ a) :
    Memory.read (push c F d).framer.buf a = Memory.read F.buf a :=
  have hstart : KeepsByte c F a F d := ⟨hF, hw, ha, rfl⟩
  (turns_keep (P := fun G _ rest => KeepsByte c F a G rest) (es := [])
    (fun _ _ _ _ _ _ h ht => turn_keeps_byte h ht) _ hstart).same

/-- Settles O34, turn by turn: a drop writes below the cursor, and an append at the cursor takes one
byte of the operand. -/
theorem fpushStoresOnlyBelowItsReach : Obligations.FpushStoresOnlyBelowItsReach := by
  intro d s t hF hw h a ha
  rw [exec_fpush hw, Host.Outcome.next.injEq] at h
  subst h
  exact read_push hF hw ha

end Sys2Proof.Machine
end

section
/-! The step on a command that is an operation (spec/20_memory.md rule R52). -/

namespace Sys2Proof.Machine

/-- A command that decodes to an operation is run as that operation. -/
theorem runCommand_of_decode {c : Command} {s : State} {i : Instr}
    (h : decode s.cfg.lenW c = .instr i) : runCommand c s = exec i s := by
  simp only [runCommand, h]

/-- Settles O5: the pending command is taken, decoded and executed. -/
theorem stepRunsTheDecodedOperation : Obligations.StepRunsTheDecodedOperation := by
  intro s c rest i hi hd
  rw [step_command hi]
  exact runCommand_of_decode (s := { s with inputs := rest }) hd

end Sys2Proof.Machine
end

section
/-! The two checksum engines: the response of `CRC16`, and the checksums of no bytes
(spec/40_crc16.md rules R91 to R94, spec/41_crc32.md rule R104). -/

namespace Sys2Proof.Machine

section
variable (n : Nat) (v : U16)
@[simp] theorem rspCrc16_valid : (rspCrc16 n v).valid = true := rfl
@[simp] theorem rspCrc16_status : (rspCrc16 n v).status = 0 := rfl
@[simp] theorem rspCrc16_returnsStatus : (rspCrc16 n v).returnsStatus = false := rfl
@[simp] theorem rspCrc16_value : (rspCrc16 n v).value = v.setWidth 32 := rfl
end

theorem crc16_eq_foldl (d : List Byte) : crc16 d = d.foldl crc16Step 0xFFFF := rfl

@[simp] theorem crc16_nil : crc16 [] = 0xFFFF := rfl

@[simp] theorem crc32_nil : crc32 [] = 0 := rfl

/-- The explicit test of rule R104 changes no result: over no bytes the register keeps its initial
value, which the final xor takes to 0 (spec/90_conflicts.md C2). -/
theorem crc32_eq_run32_xor (d : List Byte) : crc32 d = run32 0xFFFFFFFF d ^^^ 0xFFFFFFFF := by
  cases d with
  | nil => simp
  | cons b d => rfl

/-- Settles O7: the operation answers its response and writes nothing else. -/
theorem crc16CompletesWithItsResult : Obligations.Crc16CompletesWithItsResult := by
  intro d s
  refine ⟨_, exec_crc16 d s, rspCrc16_valid _ _, rspCrc16_status _ _, ?_, ?_, rfl, rfl, rfl, rfl⟩
  · rw [outPins_rspStatus, complete_rsp, shownStatus_of_not (rspCrc16_returnsStatus _ _)]
  · rw [complete_rsp, rspCrc16_value, crc16_eq_foldl]

/-- Settles O9: both values at no bytes, and the override of `CRC32` that changes no result. -/
theorem checksumsOfNoBytes : Obligations.ChecksumsOfNoBytes :=
  ⟨crc16_nil, crc32_nil, crc32_eq_run32_xor⟩

end Sys2Proof.Machine
end

section
/-! The response of `CRC32`, and its checksum with the test for no bytes that rule R104 demands
(spec/41_crc32.md rules R101 to R104). -/

namespace Sys2Proof.Machine

section
variable (n : Nat) (v : U32)
@[simp] theorem rspCrc32_valid : (rspCrc32 n v).valid = true := rfl
@[simp] theorem rspCrc32_status : (rspCrc32 n v).status = 0 := rfl
@[simp] theorem rspCrc32_returnsStatus : (rspCrc32 n v).returnsStatus = false := rfl
@[simp] theorem rspCrc32_value : (rspCrc32 n v).value = v := rfl
end

theorem crc32_eq_ite_foldl (d : List Byte) :
    crc32 d = if d = [] then 0 else d.foldl crc32Step 0xFFFFFFFF ^^^ 0xFFFFFFFF := by
  cases d with
  | nil => rw [crc32_nil, if_pos rfl]
  | cons b d => rw [crc32_eq_run32_xor, run32, if_neg (List.cons_ne_nil b d)]

/-- Settles O8: the operation answers its response and writes nothing else. -/
theorem crc32CompletesWithItsResult : Obligations.Crc32CompletesWithItsResult := by
  intro d s
  refine ⟨_, exec_crc32 d s, rspCrc32_valid _ _, rspCrc32_status _ _, ?_, ?_, rfl, rfl, rfl, rfl⟩
  · rw [outPins_rspStatus, complete_rsp, shownStatus_of_not (rspCrc32_returnsStatus _ _)]
  · rw [complete_rsp, rspCrc32_value, crc32_eq_ite_foldl]

end Sys2Proof.Machine
end

section
/-! The header codec: the first check that fails decides (spec/42_header_codec.md rule R111), the
response of `HDR`, and that the four pure operations read no framer state (rule R119). -/

namespace Sys2Proof.Machine

section
variable {c : Config} {b : List Byte}

theorem hdr_of_short (hlen : b.length < headerSize) : hdr c b = .fail .length :=
  if_pos hlen

theorem hdr_of_wrong_magic (hlen : headerSize ≤ b.length) (hmagic : le16 b 0 ≠ c.magic) :
    hdr c b = .fail .magic := by
  simp [hdr, decodeHeader, Nat.not_lt.mpr hlen, hmagic]

theorem hdr_of_wrong_version (hlen : headerSize ≤ b.length) (hmagic : le16 b 0 = c.magic)
    (hversion : versionOk c (byteAt b 2) (byteAt b 3) = false) : hdr c b = .fail .version := by
  simp [hdr, decodeHeader, Nat.not_lt.mpr hlen, hmagic, hversion]

theorem hdr_of_payload_too_large (hlen : headerSize ≤ b.length) (hmagic : le16 b 0 = c.magic)
    (hversion : versionOk c (byteAt b 2) (byteAt b 3) = true) (hcap : c.maxPayload < le16 b 10) :
    hdr c b = .fail .payloadTooLarge := by
  simp [hdr, decodeHeader, Nat.not_lt.mpr hlen, hmagic, hversion, hcap]

theorem hdr_of_wrong_crc (hlen : headerSize ≤ b.length) (hmagic : le16 b 0 = c.magic)
    (hversion : versionOk c (byteAt b 2) (byteAt b 3) = true) (hcap : le16 b 10 ≤ c.maxPayload)
    (hcrc : crc16 (crcCopy b) ≠ le16 b 12) : hdr c b = .fail .crc := by
  simp [hdr, decodeHeader, Nat.not_lt.mpr hlen, hmagic, hversion, BitVec.not_lt.mpr hcap, hcrc]

end

/-- Settles O17: split at the first check that fails. In each branch `HDR` has one value, and of the
five causes the branch's own holds and no other does. -/
theorem hdrFirstFailureDecides : Obligations.HdrFirstFailureDecides := by
  intro c b
  -- the statement's 14 and its copy of the header, by the names the laws of `hdr` use
  rw [← headerSize, ← crcCopy]
  by_cases hlen : b.length < headerSize
  · simp [hdr_of_short hlen, hlen, Nat.not_le.mpr hlen]
  have hle := Nat.not_lt.mp hlen
  by_cases hmagic : le16 b 0 = c.magic
  case neg => simp [hdr_of_wrong_magic hle hmagic, hle, hmagic]
  cases hversion : versionOk c (byteAt b 2) (byteAt b 3) with
  | false => simp [hdr_of_wrong_version hle hmagic hversion, hle, hmagic]
  | true =>
    by_cases hcap : c.maxPayload < le16 b 10
    · simp [hdr_of_payload_too_large hle hmagic hversion hcap, hle, hmagic, hcap]
    have hcap' := BitVec.not_lt.mp hcap
    by_cases hcrc : crc16 (crcCopy b) = le16 b 12
    · have hok := (hdr_ok_iff c b _).mpr ⟨hle, rfl, hmagic, hversion, hcap', hcrc⟩
      simp [hok, hle, hmagic, hcap, hcrc]
    · simp [hdr_of_wrong_crc hle hmagic hversion hcap' hcrc, hle, hmagic, hcap', hcrc]

section
variable (n : Nat) (r : HdrResult)
@[simp] theorem rspHdr_valid : (rspHdr n r).valid = true := by cases r <;> rfl
@[simp] theorem rspHdr_returnsStatus : (rspHdr n r).returnsStatus = true := by cases r <;> rfl
@[simp] theorem rspHdr_status : (rspHdr n r).status = statusCode (hdrStatusOf r) := by
  cases r <;> rfl
@[simp] theorem rspHdr_ok_header (h : Header) : (rspHdr n (.ok h)).header = h := rfl
end

/-- An accepted header is the decoded one. -/
theorem eq_decodeHeader_of_hdr_ok {c : Config} {b : List Byte} {h : Header}
    (hok : hdr c b = .ok h) : h = decodeHeader b := by
  obtain ⟨-, heq, -⟩ := (hdr_ok_iff c b h).mp hok
  exact heq

/-- Settles O16: the operation answers its response and writes nothing else. -/
theorem hdrCompletesWithItsResult : Obligations.HdrCompletesWithItsResult := by
  intro b s
  refine ⟨_, exec_hdr b s, rspHdr_valid _ _, rspHdr_status _ _, ?_, ?_, rfl, rfl, rfl, rfl⟩
  · rw [outPins_rspStatus, complete_rsp, shownStatus_of_returns (rspHdr_returnsStatus _ _)]
  · intro h hok
    rw [complete_rsp, hok, rspHdr_ok_header]
    exact ⟨rfl, eq_decodeHeader_of_hdr_ok hok⟩

/-- What a pure operation answers is made of the parameters and the free values alone (rules R14,
R91, R103, R119 and R132), and it does nothing but answer. -/
theorem exec_pure {i : Instr} (hpush : ∀ d, i ≠ .fpush d) (hinit : i ≠ .finit) :
    ∃ r : Config → Nat → Rsp, ∀ s, exec i s = .next (complete s (r s.cfg s.fresh)) := by
  cases i with
  | crc16 d => exact ⟨fun _ n => rspCrc16 n (crc16 d), exec_crc16 d⟩
  | crc32 d => exact ⟨fun _ n => rspCrc32 n (crc32 d), exec_crc32 d⟩
  | hdr d => exact ⟨fun c n => rspHdr n (hdr c d), exec_hdr d⟩
  | pkt d => exact ⟨fun c n => rspPkt n (pkt c d), exec_pkt d⟩
  | finit => exact absurd rfl hinit
  | fpush d => exact absurd rfl (hpush d)

/-- Settles O55: both states give the operation's answer the same parameters and free values. -/
theorem pureOperationsIgnoreTheFramer : Obligations.PureOperationsIgnoreTheFramer := by
  intro i s u hpush hinit hcfg hfresh
  obtain ⟨r, hr⟩ := exec_pure hpush hinit
  refine ⟨_, _, hr s, hr u, ?_, rfl, rfl, rfl, rfl⟩
  rw [complete_rsp, complete_rsp, hcfg, hfresh]

end Sys2Proof.Machine
end

section
/-! The packet validator: the first check that fails decides (spec/43_packet_validator.md rule R133),
and the response of `PKT`. -/

namespace Sys2Proof.Machine

section
variable {c : Config} {b : List Byte}

theorem pkt_of_short (hlen : b.length < minPacket) : pkt c b = .tooShort :=
  if_pos hlen

theorem pkt_of_hdr_fail {e : HdrError} (hlen : minPacket ≤ b.length) (hhdr : hdr c b = .fail e) :
    pkt c b = .header e := by
  simp [pkt, Nat.not_lt.mpr hlen, hhdr]

theorem pkt_of_wrong_length {h : Header} (hlen : minPacket ≤ b.length) (hhdr : hdr c b = .ok h)
    (hframe : b.length ≠ frameLen h) : pkt c b = .lenMismatch := by
  simp [pkt, Nat.not_lt.mpr hlen, hhdr, hframe]

theorem pkt_of_wrong_crc {h : Header} (hhdr : hdr c b = .ok h) (hframe : b.length = frameLen h)
    (hcrc : crc32 (payloadOf h b) ≠ storedCrc32 h b) : pkt c b = .payloadCrc := by
  simp [pkt, hframe, Nat.not_lt.mpr (minPacket_le_frameLen h), hhdr, hcrc]

/-- Bytes enough for a packet hold a whole header, so `HDR` does not fail by their length
(rule R127). -/
theorem hdr_ne_fail_length (hlen : minPacket ≤ b.length) : hdr c b ≠ .fail .length := by
  obtain ⟨hshort, -⟩ := hdrFirstFailureDecides c b
  rw [Ne, hshort, Nat.not_lt]
  exact Nat.le_trans (by decide) hlen

end

/-! The three quantities of a packet as the statement of the first failure writes them
(rules R128 to R130). -/

section
variable (h : Header) (b : List Byte)

theorem frameLen_eq : frameLen h = 14 + h.payloadLen.toNat + 4 := rfl

theorem payloadOf_eq : payloadOf h b = (b.drop 14).take h.payloadLen.toNat := by
  rw [payloadOf, slice, List.drop_take, Nat.add_sub_cancel_left, headerSize]

theorem storedCrc32_eq : storedCrc32 h b = le32 b (14 + h.payloadLen.toNat) := rfl

end

/-- Settles O23: split at the first check that fails. In each branch `PKT` has one value, and of the
four causes the branch's own holds and no other does. -/
theorem pktFirstFailureDecides : Obligations.PktFirstFailureDecides := by
  intro c b
  simp only [← frameLen_eq, ← payloadOf_eq, ← storedCrc32_eq]
  have hmin : ∀ h, 18 ≤ frameLen h := minPacket_le_frameLen
  by_cases hlen : b.length < 18
  · have hframe : ∀ h, b.length ≠ frameLen h := fun h => (Nat.lt_of_lt_of_le hlen (hmin h)).ne
    simp [pkt_of_short hlen, hlen, Nat.not_le.mpr hlen, hframe]
  have hle := Nat.not_lt.mp hlen
  cases hhdr : hdr c b with
  | fail e =>
    have hne : e ≠ .length := by simpa [hhdr] using hdr_ne_fail_length (c := c) hle
    simp [pkt_of_hdr_fail hle hhdr, hlen, hle, hne]
  | ok h =>
    by_cases hframe : b.length = frameLen h
    case neg => simp [pkt_of_wrong_length hle hhdr hframe, hlen, hle, hframe]
    by_cases hcrc : crc32 (payloadOf h b) = storedCrc32 h b
    · have hok := (pkt_ok_iff c b).mpr ⟨h, hhdr, hframe, hcrc⟩
      simp [hok, hmin, hframe, hcrc]
    · simp [pkt_of_wrong_crc hhdr hframe hcrc, hmin, hframe, hcrc]

section
variable (n : Nat) (r : PktResult)
@[simp] theorem rspPkt_valid : (rspPkt n r).valid = true := by cases r <;> rfl
@[simp] theorem rspPkt_returnsStatus : (rspPkt n r).returnsStatus = true := by cases r <;> rfl
@[simp] theorem rspPkt_status : (rspPkt n r).status = statusCode (pktStatusOf r) := by
  cases r <;> rfl
@[simp] theorem rspPkt_header_hdrStatus (e : HdrError) :
    (rspPkt n (.header e)).hdrStatus = statusCode (hdrErrorStatus e) := rfl
end

/-- Settles O22: the operation answers its response and writes nothing else. -/
theorem pktCompletesWithItsResult : Obligations.PktCompletesWithItsResult := by
  intro b s
  refine ⟨_, exec_pkt b s, rspPkt_valid _ _, rspPkt_status _ _, ?_, ?_, rfl, rfl, rfl, rfl⟩
  · rw [outPins_rspStatus, complete_rsp, shownStatus_of_returns (rspPkt_returnsStatus _ _)]
  · intro e hpkt
    obtain ⟨-, hheader, -⟩ := pktFirstFailureDecides s.cfg b
    obtain ⟨-, hhdr⟩ := (hheader e).mp hpkt
    rw [complete_rsp, hpkt, rspPkt_header_hdrStatus]
    exact ⟨hhdr, rfl⟩

end Sys2Proof.Machine
end

section
/-! The whole of an `FPUSH` (spec/44_stream_framer.md rules R153 and R154): what it answers, that it
is its next turn followed by `FPUSH` of the rest, and what the two framer operations show. -/

namespace Sys2Proof.Machine

/-- An `FPUSH` that answers began within the cursor's bound and answers what its loop leaves. -/
theorem exec_fpush_next {d : List Byte} {s t : State} (h : exec (.fpush d) s = .next t) :
    s.framer.wc ≤ s.cfg.cap ∧
      t = complete (framerDid s (push s.cfg s.framer d).framer (push s.cfg s.framer d).events)
        (rspNoStatus s.fresh) := by
  by_cases hw : s.framer.wc ≤ s.cfg.cap
  · rw [exec_fpush hw, Host.Outcome.next.injEq] at h
    exact ⟨hw, h.symm⟩
  · rw [exec_fpush_of_cap_lt (Nat.not_le.mp hw)] at h
    nomatch h

section
variable {c : Config} {F G : Framer} {data rest : List Byte} {es : List FramerEvent}

/-! The turn each derived state takes. -/

theorem turn_of_discard_state
    (h : fstate c (buffered F) = .seekingMagic ∨ fstate c (buffered F) = .headerBad)
    (data : List Byte) : turn c F data = discardTurn c F data := by
  obtain h | h := h <;> simp [turn, h]

theorem turn_of_emit_state {flen : Nat} (h : fstate c (buffered F) = .emit flen)
    (data : List Byte) : turn c F data = emitTurn c F flen data := by
  simp [turn, h]

theorem turn_of_quiescent (h : quiescent c F = true) (data : List Byte) :
    turn c F data = inputTurn c F data := by
  unfold quiescent at h
  cases hf : fstate c (buffered F) with
  | seekingMagic => simp [hf, waiting] at h
  | headerBad => simp [hf, waiting] at h
  | emit flen => simp [hf, waiting] at h
  | filling => simp [turn, hf]
  | awaitingHeader => simp [turn, hf]
  | awaitingFrame flen => simp [turn, hf]

theorem inputTurn_of_full (h : F.wc = c.cap) (b : Byte) (d : List Byte) :
    inputTurn c F (b :: d) =
      .again (bufAppend (discard1 c F) b) [.discard (Memory.read F.buf 0), .append b] d :=
  if_pos h

theorem inputTurn_of_room (h : F.wc ≠ c.cap) (b : Byte) (d : List Byte) :
    inputTurn c F (b :: d) = .again (bufAppend F b) [.append b] d :=
  if_neg h

/-! What every turn keeps. -/

/-- A turn keeps the cursor within `CAP`, whatever the buffer holds (rule R158). -/
theorem turn_keeps_cursor (hw : F.wc ≤ c.cap) (h : turn c F data = .again G es rest) :
    G.wc ≤ c.cap := by
  obtain ⟨-, rfl, -, -⟩ | ⟨n, -, rfl, -, -⟩ | ⟨b, -, -, hne, rfl, -⟩ | ⟨b, hq, -, hfull, -, -⟩ :=
    turn_again_cases h
  · exact Nat.le_trans (Nat.sub_le _ _) hw
  · exact Nat.le_trans (Nat.sub_le _ _) hw
  · exact Nat.lt_of_le_of_ne hw hne
  · exact absurd hfull (Nat.ne_of_lt (wc_lt_cap_of_quiescent hq))

/-- A turn appends the input bytes it takes, and no others (rule R151). -/
theorem turn_appends_taken (h : turn c F data = .again G es rest) :
    appendedBytes es ++ rest = data := by
  obtain ⟨-, -, rfl, rfl⟩ | ⟨n, -, -, rfl, rfl⟩ | ⟨b, -, rfl, -, -, rfl⟩ | ⟨b, -, rfl, -, -, rfl⟩ :=
    turn_again_cases h <;> rfl

/-- A turn initialises nothing. -/
theorem turn_records_no_init (h : turn c F data = .again G es rest) : .init ∉ es := by
  obtain ⟨-, -, rfl, -⟩ | ⟨n, -, -, rfl, -⟩ | ⟨b, -, -, -, -, rfl⟩ | ⟨b, -, -, -, -, rfl⟩ :=
    turn_again_cases h <;> simp

/-! The loop, without the bound on its turns. -/

theorem push_of_finished (h : turn c F data = .finished) :
    push c F data = { framer := F, events := [], rest := data, returned := true } :=
  turns_of_finished h _

/-- The loop is its next turn, and then the loop on what that turn leaves. -/
theorem push_of_again (h : turn c F data = .again G es rest) :
    push c F data = { push c G rest with events := es ++ (push c G rest).events } := by
  have hlower : turnBound G rest ≤ F.wc + 2 * data.length :=
    Nat.le_of_lt_succ (turn_lowers_bound h)
  have hrest : turns c (F.wc + 2 * data.length) G rest = push c G rest :=
    turns_of_returned hlower (push_returns c G rest).1
  rw [push, turnBound, turns_of_again h, hrest]

/-- A push appends exactly its operand, in order (rule R153). -/
theorem appendedBytes_push (c : Config) (F : Framer) (d : List Byte) :
    appendedBytes (push c F d).events = d := by
  have taken : appendedBytes (push c F d).events ++ (push c F d).rest = d :=
    turns_keep (P := fun _ es rest => appendedBytes es ++ rest = d) (es := [])
      (fun _ es _ _ es' rest h ht => by
        rw [appendedBytes_append, List.append_assoc, turn_appends_taken ht, h]) _ rfl
  obtain ⟨-, hrest, -⟩ := push_returns c F d
  rwa [hrest, List.append_nil] at taken

end

/-- Two changes of the framer in a row are recorded as one. -/
theorem framerDid_framerDid (s : State) (F G : Framer) (es fs : List FramerEvent) :
    framerDid (framerDid s F es) G fs = framerDid s G (es ++ fs) := by
  simp [framerDid]

/-- Leaving the framer as it is and recording nothing changes nothing. -/
theorem framerDid_self (s : State) : framerDid s s.framer [] = s := by
  simp [framerDid]

/-- `FPUSH` is its next turn, and then `FPUSH` of the input that turn leaves (rule R154). -/
theorem exec_fpush_of_again {s : State} {G : Framer} {data rest : List Byte}
    {es : List FramerEvent} (hw : s.framer.wc ≤ s.cfg.cap)
    (h : turn s.cfg s.framer data = .again G es rest) :
    exec (.fpush data) s = exec (.fpush rest) (framerDid s G es) := by
  rw [exec_fpush hw, exec_fpush (s := framerDid s G es) (turn_keeps_cursor hw h), push_of_again h,
    framerDid_framerDid]
  rfl

/-- Where its next turn returns, `FPUSH` does nothing but answer (rules R153 and R167). -/
theorem exec_fpush_of_finished {s : State} {data : List Byte} (hw : s.framer.wc ≤ s.cfg.cap)
    (h : turn s.cfg s.framer data = .finished) :
    exec (.fpush data) s = .next (complete s (rspNoStatus s.fresh)) := by
  rw [exec_fpush hw, push_of_finished h, framerDid_self]

/-- Settles O28: each turn appends what it takes of the input, and the loop returns when none is
left. -/
theorem fpushConsumesAllAndQuiesces : Obligations.FpushConsumesAllAndQuiesces := by
  intro d s hw
  obtain ⟨-, -, hquiet⟩ := push_returns s.cfg s.framer d
  exact ⟨_, _, exec_fpush hw d, rfl, appendedBytes_push _ _ _, hquiet, rfl, rfl⟩

/-- Settles O30: each derived state has its turn, and the loop goes on from what that turn left. -/
theorem fpushIsItsLoop : Obligations.FpushIsItsLoop := by
  intro s hw
  refine ⟨fun hdiscard d => ?_, fun flen hemit d => ?_, fun hq => ⟨?_, fun b d => ?_⟩⟩
  · exact exec_fpush_of_again hw (turn_of_discard_state hdiscard d)
  · exact exec_fpush_of_again hw (turn_of_emit_state hemit d)
  · exact exec_fpush_of_finished hw (turn_of_quiescent hq [])
  · have hturn := turn_of_quiescent hq (b :: d)
    split
    case isTrue hfull =>
      exact exec_fpush_of_again hw (hturn.trans (inputTurn_of_full hfull b d))
    case isFalse hroom =>
      exact exec_fpush_of_again hw (hturn.trans (inputTurn_of_room hroom b d))

/-- Settles O27: the initialised framer is put in place and the initialisation recorded. -/
theorem finitClearsTheFramer : Obligations.FinitClearsTheFramer := by
  intro s
  exact ⟨_, exec_finit s, Memory.read_nil, rfl, rfl, rfl, quiescent_initial _, rfl, rfl, rfl⟩

/-- Settles O29: neither operation returns a status, so the port shows 0 for both, and the response
of `FINIT` is the old one but for that mark and `rsp_valid`. -/
theorem finitAndFpushGiveNoResult : Obligations.FinitAndFpushGiveNoResult := by
  intro s t
  constructor
  · intro h
    rw [exec_finit, Host.Outcome.next.injEq] at h
    subst h
    have hshown := shownStatus_of_not (rspFinit_returnsStatus s.rsp)
    exact ⟨rfl, hshown, rfl, rfl, rfl, rfl, rfl, rfl, rfl⟩
  · intro d h
    obtain ⟨-, rfl⟩ := exec_fpush_next h
    have hshown := shownStatus_of_not (rspNoStatus_returnsStatus s.fresh)
    exact ⟨rfl, hshown, rspNoStatus_status s.fresh⟩

end Sys2Proof.Machine
end

section
/-! The derived state (spec/44_stream_framer.md rule R143): when the framer discards for the magic,
and when for the header. -/

namespace Sys2Proof.Machine

/-- A 16-bit field is `v` exactly when its two bytes are those of `v`, the low one first
(rule R44). -/
theorem le16_eq_iff (b : List Byte) (k : Nat) (v : U16) :
    le16 b k = v ↔ byteAt b k = v.extractLsb' 0 8 ∧ byteAt b (k + 1) = v.extractLsb' 8 8 := by
  have put16_eq : put16 (le16 b k) = put16 v ↔ le16 b k = v :=
    ⟨fun h => by rw [← le16_put16 (le16 b k) [], h, le16_put16], fun h => by rw [h]⟩
  rw [← put16_eq, put16_le16, put16]
  simp

/-- Below the cursor a byte of the list view is the byte in the buffer (rule R29). -/
theorem byteAt_buffered {F : Framer} {k : Nat} (h : k < F.wc) :
    byteAt (buffered F) k = Memory.read F.buf k := by
  rw [byteAt_eq_getElem _ _ (by simpa using h), getElem_buffered]

section
variable {c : Config} {q : List Byte}

/-- The framer discards for the magic when two bytes are there and are not the magic (rule R145). -/
theorem fstate_seekingMagic_iff :
    fstate c q = .seekingMagic ↔ 2 ≤ q.length ∧ le16 q 0 ≠ c.magic := by
  unfold fstate
  split_ifs with hshort hmagic hheader
  · simp [hshort]
  · simp [Nat.not_lt.mp hshort, hmagic]
  · simp [hmagic]
  · split
    · simp [hmagic]
    · split_ifs <;> simp [hmagic]

/-- The framer discards for the header when 14 bytes are there that begin with the magic and `HDR`
fails on them; the capacity test is dead, since an accepted frame fits (rules R147 and R148). -/
theorem fstate_headerBad (h : fstate c q = .headerBad) :
    headerSize ≤ q.length ∧ le16 q 0 = c.magic ∧ ∃ e, hdr c (q.take headerSize) = .fail e := by
  unfold fstate at h
  split_ifs at h with hshort hmagic hheader
  refine ⟨Nat.not_lt.mp hheader, Decidable.not_not.mp hmagic, ?_⟩
  split at h
  case h_1 e he => exact ⟨e, he⟩
  case h_2 x hx =>
    rw [if_neg (Nat.not_lt.mpr (frameLen_le_cap hx))] at h
    split at h <;> nomatch h

end

/-- Settles O36: the magic test on the list view, byte by byte. -/
theorem magicTestIsLowByteFirst : Obligations.MagicTestIsLowByteFirst := by
  intro c F
  rw [fstate_seekingMagic_iff, length_buffered, Ne, le16_eq_iff]
  refine and_congr_right fun hw => ?_
  rw [byteAt_buffered (by omega), byteAt_buffered (by omega)]

/-- Settles O37: of the five failures of `HDR` the first 14 bytes rule out the length, and their
beginning with the magic rules out the magic. -/
theorem headerBadHasOneOfThreeCauses : Obligations.HeaderBadHasOneOfThreeCauses := by
  intro c q h
  obtain ⟨hlen, hmagic, e, he⟩ := fstate_headerBad h
  rw [← headerSize, he]
  obtain ⟨hlength_iff, hmagic_iff, -⟩ := hdrFirstFailureDecides c (q.take headerSize)
  cases e with
  | length =>
    have hshort := hlength_iff.mp he
    rw [List.length_take_of_le hlen] at hshort
    exact absurd hshort (by decide)
  | magic =>
    obtain ⟨-, hne⟩ := hmagic_iff.mp he
    rw [le16_take q (by decide)] at hne
    exact absurd hmagic hne
  | version => exact .inl rfl
  | payloadTooLarge => exact .inr (.inl rfl)
  | crc => exact .inr (.inr rfl)

end Sys2Proof.Machine
end

section
/-! The books between two moments of an `FPUSH` (spec/44_stream_framer.md rules R149, R150 and
R161), and the moment of each delivery (rule R168). -/

namespace Sys2Proof.Machine

/-- Counting on by any number from a count that has wrapped (rules R26 and R27). -/
theorem truncN_truncN_add (w v k : Nat) : truncN w (truncN w v + k) = truncN w (v + k) := by
  simp [truncN]

section
variable {c : Config} {F G : Framer} {es fs : List FramerEvent}

/-- Since balanced books the lost bytes counted are the discards recorded. -/
theorem Ledger.lost_since (hF : Ledger c F es) (hG : Ledger c G (es ++ fs)) (hfs : .init ∉ fs) :
    G.syncLossCount = truncN c.cntW (F.syncLossCount + (discardedBytes fs).length) := by
  rw [hG.lost, hF.lost, sinceInit_append hfs, discardedBytes_append, List.length_append,
    truncN_truncN_add]

/-- Since balanced books the frames counted are the deliveries recorded. -/
theorem Ledger.frames_since (hF : Ledger c F es) (hG : Ledger c G (es ++ fs)) (hfs : .init ∉ fs) :
    G.framesEmitted = truncN c.cntW (F.framesEmitted + (deliveries fs).length) := by
  rw [hG.frames, hF.frames, sinceInit_append hfs, deliveries_append, List.length_append,
    truncN_truncN_add]

/-- Since balanced books the cursor moved up by the bytes appended and down by those consumed. -/
theorem Ledger.wc_since (hF : Ledger c F es) (hG : Ledger c G (es ++ fs)) (hfs : .init ∉ fs) :
    G.wc + (consumedBytes fs).length = F.wc + (appendedBytes fs).length := by
  have hbefore := congrArg List.length hF.bytes
  have hafter := congrArg List.length hG.bytes
  simp only [sinceInit_append hfs, appendedBytes_append, consumedBytes_append, List.length_append,
    length_buffered] at hbefore hafter
  omega

end

section
variable {c : Config} {F : Framer}

/-- The loop initialises nothing. -/
theorem turns_record_no_init (c : Config) (n : Nat) (F : Framer) (data : List Byte) :
    .init ∉ (turns c n F data).events :=
  turns_keep (P := fun _ es _ => .init ∉ es) (es := [])
    (fun _ _ _ _ _ _ h ht => by simp [h, turn_records_no_init ht]) n List.not_mem_nil

/-- After any number of turns the framer is inside `CAP` and the books balance. -/
theorem turns_keep_books {es : List FramerEvent} (hF : FramerFits c F) (hL : Ledger c F es)
    (n : Nat) (data : List Byte) :
    FramerFits c (turns c n F data).framer ∧
      Ledger c (turns c n F data).framer (es ++ (turns c n F data).events) :=
  turns_keep (P := fun F es _ => FramerFits c F ∧ Ledger c F es)
    (fun _ _ _ _ _ _ h ht =>
      ⟨turn_keeps_fits h.1 ht, turn_keeps_ledger h.1.canonical h.2 ht⟩) n ⟨hF, hL⟩

/-- Where a turn's events and later ones hold a delivery, it is that turn's, made in `Emit` before
anything else, or it comes later. -/
theorem turn_delivers_or_later {G : Framer} {data rest : List Byte}
    {es later pre post : List FramerEvent} {x : Delivery} (h : turn c F data = .again G es rest)
    (hx : es ++ later = pre ++ .emit x :: post) :
    (pre = [] ∧ ∃ flen, fstate c (buffered F) = .emit flen ∧ x = delivery F flen) ∨
      ∃ pre', pre = es ++ pre' ∧ later = pre' ++ .emit x :: post := by
  obtain ⟨-, -, rfl, -⟩ | ⟨flen, hf, -, rfl, -⟩ | ⟨b, -, -, -, -, rfl⟩ | ⟨b, hq, -, hfull, -, -⟩ :=
    turn_again_cases h
  · exact .inr (by simpa [List.cons_eq_append_iff] using hx)
  · rw [List.singleton_append, List.cons_eq_append_iff] at hx
    obtain ⟨hpre, hfirst⟩ | hlater := hx
    · rw [List.cons.injEq, FramerEvent.emit.injEq] at hfirst
      exact .inl ⟨hpre, flen, hf, hfirst.1⟩
    · exact .inr hlater
  · exact .inr (by simpa [List.cons_eq_append_iff] using hx)
  · exact absurd hfull (Nat.ne_of_lt (wc_lt_cap_of_quiescent hq))

/-- Every delivery of the loop is made after some number of its turns, which recorded all that comes
before it, by a framer in `Emit`. -/
theorem turns_delivers {n : Nat} {data : List Byte} {pre post : List FramerEvent} {x : Delivery}
    (h : (turns c n F data).events = pre ++ .emit x :: post) :
    ∃ m flen, (turns c m F data).events = pre ∧
      fstate c (buffered (turns c m F data).framer) = .emit flen ∧
      x = delivery (turns c m F data).framer flen := by
  induction n generalizing F data pre with
  | zero => simp [turns] at h
  | succ n ih =>
    cases ht : turn c F data with
    | finished => simp [turns_of_finished ht] at h
    | again G es rest =>
      rw [turns_of_again ht] at h
      obtain ⟨rfl, flen, hf, hx⟩ | ⟨pre, rfl, hlater⟩ := turn_delivers_or_later ht h
      · exact ⟨0, flen, rfl, hf, hx⟩
      · obtain ⟨m, flen, rfl, hf, hx⟩ := ih hlater
        exact ⟨m + 1, flen, by rw [turns_of_again ht], by rwa [turns_of_again ht],
          by rwa [turns_of_again ht]⟩

end

/-- Settles O39, by the books before and after the push. -/
theorem countersCountDiscardsAndFrames : Obligations.CountersCountDiscardsAndFrames := by
  intro d s t es hs h hes
  obtain ⟨-, rfl⟩ := exec_fpush_next h
  obtain rfl : (push s.cfg s.framer d).events = es := List.append_cancel_left hes
  have hL : Ledger _ _ _ := (exec_keeps_inv hs h).ledger
  have hno := turns_record_no_init s.cfg (turnBound s.framer d) s.framer d
  exact ⟨hs.ledger.lost_since hL hno, hs.ledger.frames_since hL hno⟩

/-- Settles O42: at a delivery some turns have been made, the books balance, and the sink sees the
framer as these turns left it. -/
theorem deliverySeesCountersBeforeIt : Obligations.DeliverySeesCountersBeforeIt := by
  intro d s t pre post x hs h hes
  obtain ⟨-, rfl⟩ := exec_fpush_next h
  have hrecord : (push s.cfg s.framer d).events = pre ++ .emit x :: post :=
    List.append_cancel_left hes
  obtain ⟨m, flen, rfl, -, rfl⟩ := turns_delivers hrecord
  obtain ⟨hfits, hL⟩ := turns_keep_books (framerGood_iff.mp hs.framer).1 hs.ledger m d
  have hno := turns_record_no_init s.cfg m s.framer d
  have hframe (F : Framer) : (delivery F flen).frame.length ≤ F.wc := by simp [delivery]
  exact ⟨hs.ledger.frames_since hL hno, hs.ledger.lost_since hL hno, hs.ledger.wc_since hL hno,
    hframe _, hfits.cursor⟩

end Sys2Proof.Machine
end

section
/-! Nothing is fatal (spec/44_stream_framer.md rule R171, spec/60_exceptions.md rule R188). -/

namespace Sys2Proof.Machine

/-- Within the cursor's bound every operation completes: `FPUSH` alone has a guard. -/
theorem exec_completes {s : State} (hw : s.framer.wc ≤ s.cfg.cap) (i : Instr) :
    ∃ t, exec i s = .next t := by
  cases i with
  | crc16 d => exact ⟨_, exec_crc16 d s⟩
  | crc32 d => exact ⟨_, exec_crc32 d s⟩
  | hdr d => exact ⟨_, exec_hdr d s⟩
  | pkt d => exact ⟨_, exec_pkt d s⟩
  | finit => exact ⟨_, exec_finit s⟩
  | fpush d => exact ⟨_, exec_fpush hw d⟩

/-- A command faults only as the operation it decodes to: what decodes to none is answered or
refused. -/
theorem runCommand_fault {c : Command} {s : State} {f : Fault} (h : runCommand c s = .fault f) :
    ∃ i, exec i s = .fault f := by
  unfold runCommand at h
  cases hd : decode s.cfg.lenW c with
  | instr i => exact ⟨i, by simpa only [hd] using h⟩
  | rejected e => cases e <;> simp [hd] at h

/-- A step faults only in an operation: idling and reset always give a next state. -/
theorem step_fault {s : State} {f : Fault} (h : step s = .fault f) :
    ∃ rest i, exec i { s with inputs := rest } = .fault f := by
  cases hi : s.inputs with
  | nil => simp [step_idle hi] at h
  | cons input rest =>
    cases input with
    | command c =>
      rw [step_command hi] at h
      exact ⟨rest, runCommand_fault h⟩
    | reset a => simp [step_reset hi] at h

/-- Settles O51: the invariant keeps the cursor below `CAP`, where every operation completes, and a
step could fault only in an operation. -/
theorem nothingIsFatal : Obligations.NothingIsFatal := by
  intro s hs
  have hw : s.framer.wc ≤ s.cfg.cap := Nat.le_of_lt hs.framer.cursor
  refine ⟨exec_completes hw, fun f hf => ?_⟩
  obtain ⟨rest, i, hfault⟩ := step_fault hf
  obtain ⟨t, hnext⟩ := exec_completes (s := { s with inputs := rest }) hw i
  rw [hnext] at hfault
  nomatch hfault

end Sys2Proof.Machine
end

section
/-! The decoder and the encoder (spec/30_encoding.md rules R72, R74 and R75): what each accepts,
that they are inverse, also over the number layout of notes/assumptions/6.md, and what a step makes
of a command that is no transaction. -/

namespace Sys2Proof

/-- Every operation's encoding has the shape stated per constructor in Laws/PerInstr. -/
theorem encodedShape (i : Instr) : Laws.EncodedShape.Statement i := by
  cases i with
  | crc16 d => exact Laws.EncodedShape.crc16 d
  | crc32 d => exact Laws.EncodedShape.crc32 d
  | hdr d => exact Laws.EncodedShape.hdr d
  | pkt d => exact Laws.EncodedShape.pkt d
  | finit => exact Laws.EncodedShape.finit
  | fpush d => exact Laws.EncodedShape.fpush d

/-- The decoder accepts a command exactly when its selector is assigned, its length fits and is that
of the bytes supplied, and `FINIT` comes without an operand. -/
theorem decode_eq_instr_iff (lenW : Nat) (c : Command) (i : Instr) :
    decode lenW c = .instr i ↔ selected c.op c.data = some i ∧ c.len < 2 ^ lenW ∧
      c.data.length = c.len ∧ (i = .finit → c.len = 0) := by
  constructor
  · intro h
    unfold decode at h
    cases hsel : selected c.op c.data with
    | none => simp [hsel] at h
    | some j =>
      simp only [hsel] at h
      split_ifs at h with hwide hdata hfinit
      obtain rfl := DecodeResult.instr.inj h
      exact ⟨rfl, Nat.not_le.mp hwide, Decidable.not_not.mp hdata,
        fun hj => Decidable.not_not.mp fun hlen => hfinit ⟨hj, hlen⟩⟩
  · rintro ⟨hsel, hfits, hdata, hfinit⟩
    have hempty : ¬(i = .finit ∧ c.len ≠ 0) := fun ⟨hi, hlen⟩ => hlen (hfinit hi)
    simp only [decode, hsel, if_neg (Nat.not_le.mpr hfits), hdata, ne_eq, not_true_eq_false,
      if_false, if_neg hempty]

/-- The selector table read backwards: an operation is selected by its own selector, and unless it
is `FINIT` the data is its operand. -/
theorem selected_eq_some {op : BitVec 3} {data : List Byte} {i : Instr}
    (h : selected op data = some i) : op = selector i ∧ (i = .finit ∨ i.operand = data) := by
  unfold selected at h
  split_ifs at h with h0 h1 h2 h3 h4 h5 <;> obtain rfl := Option.some.inj h
  · exact ⟨h0, .inr rfl⟩
  · exact ⟨h1, .inr rfl⟩
  · exact ⟨h2, .inr rfl⟩
  · exact ⟨h3, .inr rfl⟩
  · exact ⟨h4, .inl rfl⟩
  · exact ⟨h5, .inr rfl⟩

/-- The encoding of a well-formed operation decodes to it. -/
theorem decode_encode {lenW : Nat} {i : Instr} (h : i.wf lenW = true) :
    decode lenW (encode i) = .instr i := by
  obtain ⟨hlen, -, hsel⟩ := encodedShape i
  have hfits : i.operand.length < 2 ^ lenW := by simpa [Instr.wf] using h
  exact (decode_eq_instr_iff _ _ _).mpr ⟨hsel, hfits, hlen.symm, by rintro rfl; rfl⟩

/-! The number layout. -/

/-- The number of some bytes is below the power their count allows. -/
theorem natOfBytes_lt (d : List Byte) : natOfBytes d < 2 ^ (8 * d.length) := by
  induction d with
  | nil => simp [natOfBytes]
  | cons b d ih =>
    have hb := b.isLt
    have hpow : 2 ^ (8 * (b :: d).length) = 256 * 2 ^ (8 * d.length) := by
      rw [List.length_cons, Nat.mul_succ, Nat.pow_add, Nat.mul_comm]
    rw [natOfBytes, hpow]
    omega

/-- Bytes are read back from their number. -/
theorem bytesOfNat_natOfBytes (d : List Byte) : bytesOfNat d.length (natOfBytes d) = d := by
  induction d with
  | nil => rfl
  | cons b d ih =>
    have hb := b.isLt
    have hlow : BitVec.ofNat 8 (b.toNat + 256 * natOfBytes d) = b :=
      BitVec.eq_of_toNat_eq (by rw [BitVec.toNat_ofNat]; omega)
    have hhigh : (b.toNat + 256 * natOfBytes d) / 256 = natOfBytes d := by omega
    rw [List.length_cons, natOfBytes, bytesOfNat, hlow, hhigh, ih]

/-- A command's number has no bits above those of its three parts. -/
theorem toTableWord_lt {lenW : Nat} {c : Command} (hlen : c.len < 2 ^ lenW) :
    c.toTableWord lenW < 2 ^ (8 + lenW + 8 * c.data.length) := by
  have hop : c.op.toNat < 2 ^ 8 := Nat.lt_trans c.op.isLt (by decide)
  have hrest : c.len + 2 ^ lenW * natOfBytes c.data < 2 ^ lenW * 2 ^ (8 * c.data.length) :=
    Nat.lt_of_lt_of_le (Nat.add_lt_add_right hlen _) (by
      rw [Nat.add_comm, ← Nat.mul_succ]
      exact Nat.mul_le_mul_left _ (natOfBytes_lt c.data))
  rw [Command.toTableWord, Nat.add_assoc, Nat.pow_add, Nat.pow_add]
  omega

/-- A command whose length fits and is that of its bytes is read back from its number. -/
theorem ofTableWord_toTableWord {lenW nbits : Nat} {c : Command} (hlen : c.len < 2 ^ lenW)
    (hdata : c.data.length = c.len) (hbits : 8 + lenW + 8 * c.len ≤ nbits) :
    Command.ofTableWord lenW nbits (c.toTableWord lenW) = c := by
  obtain ⟨op, len, data⟩ := c
  simp only at hlen hdata hbits
  subst hdata
  have hword : Command.toTableWord lenW ⟨op, data.length, data⟩ % 2 ^ nbits =
      op.toNat + 2 ^ 8 * (data.length + 2 ^ lenW * natOfBytes data) :=
    Nat.mod_eq_of_lt (Nat.lt_of_lt_of_le (toTableWord_lt hlen)
      (Nat.pow_le_pow_right (by decide) hbits))
  have hop : op.toNat < 8 := op.isLt
  have hcut : (op.toNat + 2 ^ 8 * (data.length + 2 ^ lenW * natOfBytes data)) / 2 ^ 8 =
      data.length + 2 ^ lenW * natOfBytes data := by omega
  have hlow : BitVec.ofNat 3 (op.toNat + 2 ^ 8 * (data.length + 2 ^ lenW * natOfBytes data)) = op :=
    BitVec.eq_of_toNat_eq (by rw [BitVec.toNat_ofNat]; omega)
  simp only [Command.ofTableWord, hword, hcut, hlow, Nat.add_mul_mod_self_left,
    Nat.mod_eq_of_lt hlen, Nat.add_mul_div_left _ _ (Nat.two_pow_pos lenW), Nat.div_eq_of_lt hlen,
    Nat.zero_add, bytesOfNat_natOfBytes]

/-- Settles O2: the decoder undoes the encoder, and the number layout is read back. -/
theorem decodeOfEncodeIsTheOperation : Obligations.DecodeOfEncodeIsTheOperation := by
  intro lenW nbits i hwf
  refine ⟨decode_encode hwf, fun hbits => ?_⟩
  have hfits : i.operand.length < 2 ^ lenW := by simpa [Instr.wf] using hwf
  rw [ofTableWord_toTableWord hfits rfl hbits, decode_encode hwf]

/-- Settles O3: an accepted command has the operation's selector and, as its length is that of its
data, the operation's operand. -/
theorem acceptedCommandIsTheEncoding : Obligations.AcceptedCommandIsTheEncoding := by
  intro lenW c i h
  obtain ⟨hsel, hfits, hdata, hfinit⟩ := (decode_eq_instr_iff lenW c i).mp h
  obtain ⟨hop, hoperand⟩ := selected_eq_some hsel
  have hoperand : i.operand = c.data := by
    obtain rfl | hoperand := hoperand
    · exact (List.eq_nil_of_length_eq_zero (hdata.trans (hfinit rfl))).symm
    · exact hoperand
  refine ⟨?_, by simpa [Instr.wf, hoperand, hdata] using hfits⟩
  obtain ⟨op, len, data⟩ := c
  simp only at hop hdata hoperand
  rw [encode, hop, hoperand, hdata]

/-- Settles O1: the nine words, evaluated. -/
theorem selectorWordsDecode : Obligations.SelectorWordsDecode := by
  unfold Obligations.SelectorWordsDecode
  decide

end Sys2Proof

namespace Sys2Proof.Machine

/-! Commands that are no transaction. -/

section
variable {lenW : Nat} {c : Command}

/-- The reserved selectors select nothing, whatever comes with them (rule R75). -/
theorem decode_of_reserved (h : c.op = 6 ∨ c.op = 7) (lenW : Nat) :
    decode lenW c = .rejected (.reservedSelector c.op) := by
  have hsel : selected c.op c.data = none := by obtain h | h := h <;> rw [h] <;> rfl
  rw [decode, hsel]

/-- The selectors below 6 select an operation (rule R74). -/
theorem exists_selected (h : c.op.toNat < 6) : ∃ i, selected c.op c.data = some i := by
  have hassigned : ∀ op : BitVec 3, op.toNat < 6 →
      op = 0 ∨ op = 1 ∨ op = 2 ∨ op = 3 ∨ op = 4 ∨ op = 5 := by decide
  obtain h | h | h | h | h | h := hassigned _ h <;> exact ⟨_, by rw [h]; rfl⟩

theorem decode_of_length_too_wide (hop : c.op.toNat < 6) (hwide : 2 ^ lenW ≤ c.len) :
    decode lenW c = .rejected (.lengthTooWide c.len) := by
  obtain ⟨i, hsel⟩ := exists_selected hop
  simp [decode, hsel, hwide]

theorem decode_of_operand_mismatch (hop : c.op.toNat < 6) (hfits : c.len < 2 ^ lenW)
    (hdata : c.data.length ≠ c.len) :
    decode lenW c = .rejected (.operandMismatch c.len c.data.length) := by
  obtain ⟨i, hsel⟩ := exists_selected hop
  simp [decode, hsel, Nat.not_le.mpr hfits, hdata]

theorem decode_of_finit_operand (hop : c.op = 4) (hfits : c.len < 2 ^ lenW)
    (hdata : c.data.length = c.len) (hlen : c.len ≠ 0) :
    decode lenW c = .rejected (.finitOperand c.len) := by
  have hsel : selected c.op c.data = some .finit := by rw [hop]; rfl
  simp [decode, hsel, Nat.not_le.mpr hfits, hdata, hlen]

end

/-- Settles O4: the decoder sees a reserved selector first, and the step answers it. -/
theorem reservedSelectorsAnswerErrArg : Obligations.ReservedSelectorsAnswerErrArg := by
  intro s c rest hop hinputs
  have hstep : step s = .next (answerReserved { s with inputs := rest }) := by
    simp only [step_command hinputs, runCommand, decode_of_reserved hop]
  have hshown := shownStatus_of_returns (rspStatus_returnsStatus s.fresh .errArg)
  exact ⟨decode_of_reserved hop, _, hstep, rspStatus_valid _ _, rspStatus_status _ _, hshown, rfl,
    rfl, rfl, rfl⟩

/-- Settles O6: a step with nothing pending idles, and one with a command that is no transaction
refuses with the decoder's reason. -/
theorem stepIdlesOrRefusesByName : Obligations.StepIdlesOrRefusesByName := by
  refine ⟨fun s h => ⟨_, step_idle h, rspFree_valid _ _, rfl, rfl, rfl, h⟩,
    fun s c rest hinputs hop => ⟨fun hwide => ?_, fun hfits hdata => ?_,
      fun hfits hdata hfinit hlen => ?_⟩⟩
  · simp only [step_command hinputs, runCommand, decode_of_length_too_wide hop hwide]
  · simp only [step_command hinputs, runCommand, decode_of_operand_mismatch hop hfits hdata]
  · simp only [step_command hinputs, runCommand, decode_of_finit_operand hfinit hfits hdata hlen]

end Sys2Proof.Machine
end

section
/-! The two checksum engines as linear maps (spec/40_crc16.md and spec/41_crc32.md section 3):
linearity, table forms, the reflected engine, residues, and that no changed bit goes unnoticed. -/

namespace Sys2Proof.Machine

section
variable {w : Nat} {f : BitVec w → BitVec w}

/-- A map that is linear over xor stays so when it is iterated. -/
theorem iterate_xor (hf : ∀ a b, f (a ^^^ b) = f a ^^^ f b) (n : Nat) (a b : BitVec w) :
    f^[n] (a ^^^ b) = f^[n] a ^^^ f^[n] b := by
  induction n generalizing a b with
  | zero => rfl
  | succ n ih => rw [Function.iterate_succ_apply, hf, ih]; rfl

/-- A map that is linear over xor and takes nothing but 0 to 0 is injective. -/
theorem injective_of_xor (hf : ∀ a b, f (a ^^^ b) = f a ^^^ f b) (hzero : ∀ a, f a = 0 → a = 0) :
    Function.Injective f := by
  intro a b hab
  have hxor : a ^^^ b = 0 := hzero _ (by rw [hf, hab]; exact BitVec.xor_self)
  exact BitVec.xor_eq_zero_iff.mp hxor

end

/-! Linearity. -/

/-- A shift is linear, and the polynomial enters with the bit shifted out. -/
theorem crc16Shift_eq_xor (r : U16) :
    crc16Shift r = (r <<< 1) ^^^ (if r.getLsbD 15 then 0x1021 else 0) := by
  unfold crc16Shift
  split <;> simp

theorem crc32Shift_eq_xor (r : U32) :
    crc32Shift r = (r >>> 1) ^^^ (if r.getLsbD 0 then 0xEDB88320 else 0) := by
  unfold crc32Shift
  split <;> simp

theorem ite_bxor {w : Nat} (p q : Bool) (poly : BitVec w) :
    (if p ^^ q then poly else 0) = (if p then poly else 0) ^^^ (if q then poly else 0) := by
  cases p <;> cases q <;> simp

theorem crc16Shift_xor (r s : U16) : crc16Shift (r ^^^ s) = crc16Shift r ^^^ crc16Shift s := by
  simp only [crc16Shift_eq_xor, BitVec.getLsbD_xor, BitVec.shiftLeft_xor_distrib, ite_bxor]
  ac_rfl

theorem crc32Shift_xor (r s : U32) : crc32Shift (r ^^^ s) = crc32Shift r ^^^ crc32Shift s := by
  simp only [crc32Shift_eq_xor, BitVec.getLsbD_xor, BitVec.ushiftRight_xor_distrib, ite_bxor]
  ac_rfl

theorem crc16Step_xor (r s : U16) (b c : Byte) :
    crc16Step (r ^^^ s) (b ^^^ c) = crc16Step r b ^^^ crc16Step s c := by
  unfold crc16Step
  rw [← iterate_xor crc16Shift_xor, BitVec.setWidth_xor, BitVec.shiftLeft_xor_distrib]
  ac_rfl

theorem crc32Step_xor (r s : U32) (b c : Byte) :
    crc32Step (r ^^^ s) (b ^^^ c) = crc32Step r b ^^^ crc32Step s c := by
  unfold crc32Step
  rw [← iterate_xor crc32Shift_xor, BitVec.setWidth_xor]
  ac_rfl

theorem crc16Step_zero_zero : crc16Step 0 0 = 0 := by decide

theorem crc32Step_zero_zero : crc32Step 0 0 = 0 := by decide

/-- Settles O10, shift by shift. -/
theorem checksumStepsAreLinear : Obligations.ChecksumStepsAreLinear :=
  ⟨crc16Step_xor, crc16Step_zero_zero, crc32Step_xor, crc32Step_zero_zero⟩

/-! Table forms. -/

/-- While the bits that are shifted out are 0, the polynomial never enters. -/
theorem crc16Shift_iterate_of_high_zero {n : Nat} {r : U16}
    (h : ∀ i, 16 ≤ i + n → r.getLsbD i = false) : crc16Shift^[n] r = r <<< n := by
  induction n generalizing r with
  | zero => simp
  | succ n ih =>
    have hshift : crc16Shift r = r <<< 1 := if_neg (by rw [h 15 (by omega)]; decide)
    have hnext : ∀ i, 16 ≤ i + n → (r <<< 1).getLsbD i = false := fun i hi => by
      cases i with
      | zero => simp
      | succ i => simp [h i (by omega)]
    rw [Function.iterate_succ_apply, hshift, ih hnext, ← BitVec.shiftLeft_add, Nat.add_comm]

/-- While the bits that are shifted out are 0, the polynomial never enters. -/
theorem crc32Shift_iterate_of_low_zero {n : Nat} {r : U32}
    (h : ∀ i, i < n → r.getLsbD i = false) : crc32Shift^[n] r = r >>> n := by
  induction n generalizing r with
  | zero => simp
  | succ n ih =>
    have hshift : crc32Shift r = r >>> 1 := if_neg (by rw [h 0 (by omega)]; decide)
    have hnext : ∀ i, i < n → (r >>> 1).getLsbD i = false := fun i hi => by
      simp [h (1 + i) (by omega)]
    rw [Function.iterate_succ_apply, hshift, ih hnext, ← BitVec.shiftRight_add, Nat.add_comm]

/-- The register met by a byte is its low half, which eight shifts move up, and its high half met by
the byte, which indexes the table. -/
theorem crc16Step_eq_table (r : U16) (b : Byte) :
    crc16Step r b = (r <<< 8) ^^^ crc16Step 0 ((r >>> 8).setWidth 8 ^^^ b) := by
  have hsplit : r ^^^ (b.setWidth 16 <<< 8) =
      (r.setWidth 8).setWidth 16 ^^^
        ((0 : U16) ^^^ ((r >>> 8).setWidth 8 ^^^ b).setWidth 16 <<< 8) := by
    refine BitVec.eq_of_getLsbD_eq fun i hi => ?_
    by_cases hlow : i < 8
    · simp [hlow, hi]
    · simp [hlow, hi, show 8 + (i - 8) = i by omega, show i - 8 < 8 by omega]
  have hlow : crc16Shift^[8] ((r.setWidth 8).setWidth 16) = r <<< 8 := by
    rw [crc16Shift_iterate_of_high_zero fun i hi => by simp [show ¬i < 8 by omega]]
    refine BitVec.eq_of_getLsbD_eq fun i hi => ?_
    simp [hi, show i - 8 < 8 by omega, show i - 8 < 16 by omega]
  rw [crc16Step, hsplit, iterate_xor crc16Shift_xor, hlow, crc16Step]

/-- The register met by a byte is its upper three bytes, which eight shifts move down, and its low
byte met by the byte, which indexes the table. -/
theorem crc32Step_eq_table (r : U32) (b : Byte) :
    crc32Step r b = (r >>> 8) ^^^ crc32Step 0 (r.setWidth 8 ^^^ b) := by
  have hsplit : r ^^^ b.setWidth 32 =
      ((r >>> 8) <<< 8) ^^^ (0 ^^^ (r.setWidth 8 ^^^ b).setWidth 32) := by
    refine BitVec.eq_of_getLsbD_eq fun i hi => ?_
    by_cases hlow : i < 8
    · simp [hlow, hi]
    · simp [hlow, hi, show 8 + (i - 8) = i by omega]
  have hhigh : crc32Shift^[8] ((r >>> 8) <<< 8) = r >>> 8 := by
    rw [crc32Shift_iterate_of_low_zero fun i hi => by simp [hi]]
    refine BitVec.eq_of_getLsbD_eq fun i hi => ?_
    by_cases htop : 8 + i < 32
    · simp [htop]
    · simp [BitVec.getLsbD_of_ge _ _ (Nat.not_lt.mp htop)]
  rw [crc32Step, hsplit, iterate_xor crc32Shift_xor, hhigh, crc32Step]

/-- Settles O11. -/
theorem checksumTableForms : Obligations.ChecksumTableForms :=
  ⟨crc16Step_eq_table, crc32Step_eq_table⟩

/-! The reflected engine. -/

section
variable {w : Nat}

theorem getLsbD_reverse_of_lt (x : BitVec w) {i : Nat} (hi : i < w) :
    x.reverse.getLsbD i = x.getLsbD (w - 1 - i) := by
  rw [BitVec.getLsbD_reverse, BitVec.getMsbD_eq_getLsbD, decide_eq_true hi, Bool.true_and]

theorem reverse_xor (x y : BitVec w) : (x ^^^ y).reverse = x.reverse ^^^ y.reverse := by
  refine BitVec.eq_of_getLsbD_eq fun i hi => ?_
  simp only [getLsbD_reverse_of_lt _ hi, BitVec.getLsbD_xor]

theorem reverse_ushiftRight (x : BitVec w) (n : Nat) : (x >>> n).reverse = x.reverse <<< n := by
  refine BitVec.eq_of_getLsbD_eq fun i hi => ?_
  rw [getLsbD_reverse_of_lt _ hi, BitVec.getLsbD_ushiftRight, BitVec.getLsbD_shiftLeft]
  by_cases hn : i < n
  · rw [BitVec.getLsbD_of_ge _ _ (by omega)]
    simp [hn]
  · rw [getLsbD_reverse_of_lt _ (by omega), show w - 1 - (i - n) = n + (w - 1 - i) by omega]
    simp [hn, hi]

end

/-- The reversed constant of rule R102 is the polynomial of rule R100. -/
theorem reverse_crc32Poly : BitVec.reverse (0xEDB88320 : U32) = 0x04C11DB7 := by
  refine BitVec.eq_of_getLsbD_eq fun i hi => ?_
  rw [getLsbD_reverse_of_lt _ hi]
  revert i
  decide

/-- Reversing the bits turns the right-shifting register into the left-shifting one. -/
theorem reverse_crc32Shift : Function.Semiconj BitVec.reverse crc32Shift crc32MsbShift := by
  intro r
  have htop : r.reverse.getLsbD 31 = r.getLsbD 0 := getLsbD_reverse_of_lt r (by decide)
  unfold crc32Shift crc32MsbShift
  rw [htop]
  split
  · rw [reverse_xor, reverse_ushiftRight, reverse_crc32Poly]
  · exact reverse_ushiftRight r 1

/-- The reversed byte meets the top of the reversed register. -/
theorem reverse_setWidth_byte (b : Byte) :
    (b.setWidth 32).reverse = b.reverse.setWidth 32 <<< 24 := by
  refine BitVec.eq_of_getLsbD_eq fun i hi => ?_
  rw [getLsbD_reverse_of_lt _ hi, BitVec.getLsbD_shiftLeft, BitVec.getLsbD_setWidth,
    BitVec.getLsbD_setWidth]
  by_cases hlow : i < 24
  · rw [BitVec.getLsbD_of_ge _ _ (by omega)]
    simp [hlow]
  · rw [getLsbD_reverse_of_lt _ (by omega), show 8 - 1 - (i - 24) = 32 - 1 - i by omega]
    simp [hlow, hi, show 31 - i < 32 by omega, show i - 24 < 32 by omega]

/-- Settles O12, shift by shift. -/
theorem crc32LoopIsTheReflectedEngine : Obligations.Crc32LoopIsTheReflectedEngine := by
  intro r b
  rw [crc32MsbStep, ← reverse_setWidth_byte, ← reverse_xor, ← reverse_crc32Shift.iterate_right 8,
    BitVec.reverse_reverse_eq, crc32Step]

/-! Residues. -/

/-- A byte equal to the register's high half takes entry 0 of the table. -/
theorem crc16Step_high_byte (r : U16) : crc16Step r (r.extractLsb' 8 8) = r <<< 8 := by
  rw [crc16Step_eq_table, BitVec.setWidth_ushiftRight_eq_extractLsb, BitVec.xor_self]
  exact (congrArg _ crc16Step_zero_zero).trans BitVec.xor_zero

/-- A byte equal to the register's low byte takes entry 0 of the table. -/
theorem crc32Step_low_byte (r : U32) : crc32Step r (r.extractLsb' 0 8) = r >>> 8 := by
  rw [crc32Step_eq_table, BitVec.setWidth_eq_extractLsb' (by decide), BitVec.xor_self]
  exact (congrArg _ crc32Step_zero_zero).trans BitVec.xor_zero

/-- A register run over its own bytes, the high one first, is left at 0. -/
theorem run16_own_bytes (r : U16) : run16 r [r.extractLsb' 8 8, r.extractLsb' 0 8] = 0 := by
  have hlow : r.extractLsb' 0 8 = (r <<< 8).extractLsb' 8 8 := by
    refine BitVec.eq_of_getLsbD_eq fun i hi => ?_
    rw [BitVec.getLsbD_extractLsb', BitVec.getLsbD_extractLsb', BitVec.getLsbD_shiftLeft]
    simp [show 8 + i < 16 by omega]
  rw [run16_cons, run16_cons, run16_nil, crc16Step_high_byte, hlow, crc16Step_high_byte,
    ← BitVec.shiftLeft_add]
  exact BitVec.shiftLeft_eq_zero (Nat.le_refl 16)

/-- A register run over its own bytes, the low one first, is left at 0. -/
theorem run32_own_bytes (r : U32) : run32 r (put32 r) = 0 := by
  have hbyte (k : Nat) : r.extractLsb' k 8 = (r >>> k).extractLsb' 0 8 := by
    rw [← BitVec.setWidth_ushiftRight_eq_extractLsb, BitVec.setWidth_eq_extractLsb' (by decide)]
  have hnext (k : Nat) : crc32Step (r >>> k) (r.extractLsb' k 8) = r >>> (k + 8) := by
    rw [hbyte, crc32Step_low_byte, BitVec.shiftRight_add]
  have hfirst : crc32Step r (r.extractLsb' 0 8) = r >>> 8 := crc32Step_low_byte r
  rw [put32, run32_cons, run32_cons, run32_cons, run32_cons, run32_nil, hfirst, hnext, hnext, hnext]
  exact BitVec.ushiftRight_eq_zero (Nat.le_refl 32)

/-- The register's run is linear in the register and the bytes together (rule R107). -/
theorem run32_xor {a b : List Byte} (r s : U32) (hlen : a.length = b.length) :
    run32 (r ^^^ s) (List.zipWith (· ^^^ ·) a b) = run32 r a ^^^ run32 s b := by
  induction a generalizing b r s with
  | nil =>
    obtain rfl : b = [] := List.eq_nil_of_length_eq_zero hlen.symm
    rfl
  | cons x a ih =>
    obtain ⟨y, b, rfl⟩ := List.exists_cons_of_length_eq_add_one hlen.symm
    rw [List.zipWith_cons_cons, run32_cons, run32_cons, run32_cons, crc32Step_xor,
      ih _ _ (Nat.succ.inj hlen)]

theorem put32_xor (r s : U32) :
    put32 (r ^^^ s) = List.zipWith (· ^^^ ·) (put32 r) (put32 s) := by
  simp only [put32, BitVec.extractLsb'_xor, List.zipWith_cons_cons, List.zipWith_nil_left]

/-- The bytes of a register and of a mask together take it where the mask's bytes take 0. -/
theorem run32_own_bytes_xor (r mask : U32) :
    run32 r (put32 (r ^^^ mask)) = run32 0 (put32 mask) := by
  have hlinear := run32_xor r 0 (a := put32 r) (b := put32 mask) rfl
  simpa [← put32_xor, run32_own_bytes] using hlinear

theorem run32_zero_ones : run32 0 (put32 0xFFFFFFFF) ^^^ 0xFFFFFFFF = 0x2144DF1C := by
  decide +kernel

theorem crc16_append_own_checksum (d : List Byte) :
    crc16 (d ++ [(crc16 d).extractLsb' 8 8, (crc16 d).extractLsb' 0 8]) = 0 :=
  (run16_append _ _ _).trans (run16_own_bytes (crc16 d))

/-- The final xor keeps the register from ending at 0: the residue is that of its mask. -/
theorem crc32_append_own_checksum (d : List Byte) : crc32 (d ++ put32 (crc32 d)) = 0x2144DF1C := by
  rw [crc32_eq_run32_xor, run32_append, crc32_eq_run32_xor d, run32_own_bytes_xor, run32_zero_ones]

/-- Settles O13; the residue of `CRC32` holds for no bytes too. -/
theorem checksumResidues : Obligations.ChecksumResidues :=
  ⟨crc16_append_own_checksum, fun d _ => crc32_append_own_checksum d⟩

/-! Changed bits. -/

/-- The polynomial sets bit 0, so only 0 is shifted to 0. -/
theorem crc16Shift_eq_zero {r : U16} (h : crc16Shift r = 0) : r = 0 := by
  have hbit (i : Nat) : (crc16Shift r).getLsbD i = false := by rw [h]; exact BitVec.getLsbD_zero
  cases htop : r.getLsbD 15 with
  | true =>
    have h0 := hbit 0
    rw [crc16Shift, if_pos htop, BitVec.getLsbD_xor, BitVec.getLsbD_shiftLeft] at h0
    exact absurd h0 (by simp)
  | false =>
    refine BitVec.eq_of_getLsbD_eq fun i hi => ?_
    rw [crc16Shift, if_neg (by rw [htop]; decide)] at hbit
    obtain rfl | hlow : i = 15 ∨ i + 1 < 16 := by omega
    · exact htop
    · simpa [hlow, BitVec.getLsbD_eq_getElem hi] using hbit (i + 1)

/-- The polynomial sets bit 31, so only 0 is shifted to 0. -/
theorem crc32Shift_eq_zero {r : U32} (h : crc32Shift r = 0) : r = 0 := by
  have hbit (i : Nat) : (crc32Shift r).getLsbD i = false := by rw [h]; exact BitVec.getLsbD_zero
  cases hlow : r.getLsbD 0 with
  | true =>
    have h31 := hbit 31
    rw [crc32Shift, if_pos hlow, BitVec.getLsbD_xor, BitVec.getLsbD_ushiftRight,
      BitVec.getLsbD_of_ge r _ (by decide)] at h31
    exact absurd h31 (by decide)
  | false =>
    refine BitVec.eq_of_getLsbD_eq fun i hi => ?_
    rw [crc32Shift, if_neg (by rw [hlow]; decide)] at hbit
    cases i with
    | zero => exact hlow
    | succ i => simpa [Nat.add_comm] using hbit i

theorem crc16Shift_injective : Function.Injective crc16Shift :=
  injective_of_xor crc16Shift_xor fun _ => crc16Shift_eq_zero

theorem crc32Shift_injective : Function.Injective crc32Shift :=
  injective_of_xor crc32Shift_xor fun _ => crc32Shift_eq_zero

theorem crc16Step_injective_register (b : Byte) : Function.Injective (crc16Step · b) := by
  intro r s h
  exact (BitVec.xor_left_inj _).mp (crc16Shift_injective.iterate 8 h)

theorem crc16Step_injective_byte (r : U16) : Function.Injective (crc16Step r) := by
  intro b c h
  have hhigh := (BitVec.xor_right_inj _).mp (crc16Shift_injective.iterate 8 h)
  have hnat := congrArg BitVec.toNat hhigh
  have hb := b.isLt
  have hc := c.isLt
  simp [Nat.shiftLeft_eq] at hnat
  exact BitVec.eq_of_toNat_eq (by omega)

theorem crc32Step_injective_register (b : Byte) : Function.Injective (crc32Step · b) := by
  intro r s h
  exact (BitVec.xor_left_inj _).mp (crc32Shift_injective.iterate 8 h)

theorem crc32Step_injective_byte (r : U32) : Function.Injective (crc32Step r) := by
  intro b c h
  have hlow := (BitVec.xor_right_inj _).mp (crc32Shift_injective.iterate 8 h)
  have hnat := congrArg BitVec.toNat hlow
  simp only [BitVec.toNat_setWidth] at hnat
  exact BitVec.eq_of_toNat_eq (by omega)

/-- A changed bit changes its byte. -/
theorem xor_bit_ne (b : Byte) {k : Nat} (hk : k < 8) : b ^^^ (1#8 <<< k) ≠ b := by
  intro h
  have hbit := congrArg (BitVec.getLsbD · k) h
  simp [hk] at hbit

/-- A changed bit stands alone between the bytes before and the bytes after it. -/
theorem flipBit_eq_append {d : List Byte} {i : Nat} (hi : i < d.length) (k : Nat) :
    flipBit d i k = d.take i ++ (byteAt d i ^^^ (1#8 <<< k)) :: d.drop (i + 1) :=
  List.set_eq_take_append_cons_drop.trans (if_pos hi)

theorem eq_append_byteAt {d : List Byte} {i : Nat} (hi : i < d.length) :
    d = d.take i ++ byteAt d i :: d.drop (i + 1) := by
  rw [byteAt_eq_getElem d i hi, List.getElem_cons_drop, List.take_append_drop]

/-- An engine whose step loses nothing of the register and nothing of the byte notices a changed
bit: the registers part at the changed byte and the bytes after it keep them apart. -/
theorem foldl_flipBit_ne {σ : Type} {step : σ → Byte → σ}
    (hregister : ∀ b, Function.Injective (step · b)) (hbyte : ∀ r, Function.Injective (step r))
    (r : σ) {d : List Byte} {i k : Nat} (hi : i < d.length) (hk : k < 8) :
    (flipBit d i k).foldl step r ≠ d.foldl step r := by
  have hafter (x : List Byte) : Function.Injective (x.foldl step) := by
    induction x with
    | nil => exact fun _ _ h => h
    | cons b x ih => exact fun _ _ h => hregister b (ih h)
  intro h
  rw [flipBit_eq_append hi, List.foldl_append, List.foldl_cons] at h
  conv at h => rhs; rw [eq_append_byteAt hi, List.foldl_append, List.foldl_cons]
  exact xor_bit_ne (byteAt d i) hk (hbyte _ (hafter _ h))

/-- Settles O14. -/
theorem crc16DetectsOneBit : Obligations.Crc16DetectsOneBit :=
  fun _ _ _ hi hk => foldl_flipBit_ne crc16Step_injective_register crc16Step_injective_byte _ hi hk

/-- Settles O15: the final xor does not matter. -/
theorem crc32DetectsOneBit : Obligations.Crc32DetectsOneBit := by
  intro d i k hi hk h
  rw [crc32_eq_run32_xor, crc32_eq_run32_xor, BitVec.xor_left_inj] at h
  exact foldl_flipBit_ne crc32Step_injective_register crc32Step_injective_byte _ hi hk h

end Sys2Proof.Machine
end

section
/-! The header codec on headers as bytes (spec/42_header_codec.md): the two version policies, the
bytes behind the header, encoding and decoding, and what a changed bit makes of a valid header. -/

namespace Sys2Proof.Machine

section
variable {c : Config} {maj min : Byte}

/-! The version policies (rule R115). -/

theorem versionOk_of_exact (h : c.versionPolicy = .exact) :
    versionOk c maj min = true ↔ maj = c.protoMajor ∧ min = c.protoMinor := by
  simp [versionOk, h]

theorem versionOk_of_minorAtMost (h : c.versionPolicy = .minorAtMost) :
    versionOk c maj min = true ↔ maj = c.protoMajor ∧ min ≤ c.protoMinor := by
  simp [versionOk, h]

/-- Under both policies an accepted version has the major and no greater a minor. -/
theorem versionOk_bounds (h : versionOk c maj min = true) :
    maj = c.protoMajor ∧ min ≤ c.protoMinor := by
  cases hp : c.versionPolicy with
  | exact =>
    obtain ⟨hmaj, hmin⟩ := (versionOk_of_exact hp).mp h
    exact ⟨hmaj, hmin ▸ BitVec.le_refl _⟩
  | minorAtMost => exact (versionOk_of_minorAtMost hp).mp h

theorem versionOk_of_wrong_major (h : maj ≠ c.protoMajor) : versionOk c maj min = false := by
  rw [Bool.eq_false_iff]
  exact fun hok => h (versionOk_bounds hok).1

theorem versionOk_of_greater_minor (h : c.protoMinor < min) : versionOk c maj min = false := by
  rw [Bool.eq_false_iff]
  exact fun hok => BitVec.not_le.mpr h (versionOk_bounds hok).2

/-- The policies agree on a minor that is not below `PROTO_MINOR`. -/
theorem versionOk_policies_agree (h : c.protoMinor ≤ min) :
    versionOk { c with versionPolicy := .exact } maj min =
      versionOk { c with versionPolicy := .minorAtMost } maj min := by
  rw [Bool.eq_iff_iff, versionOk_of_exact rfl, versionOk_of_minorAtMost rfl]
  refine and_congr_right fun _ => ⟨fun heq => heq ▸ BitVec.le_refl _, fun hle => ?_⟩
  exact BitVec.le_antisymm hle h

end

/-- Settles O19. -/
theorem versionPoliciesCompared : Obligations.VersionPoliciesCompared := by
  intro c maj min
  refine ⟨versionOk_of_exact rfl, versionOk_of_minorAtMost rfl, versionOk_of_wrong_major,
    versionOk_of_greater_minor, fun hdiffer => ?_, fun hzero => ?_⟩
  · by_contra hmin
    exact hdiffer (versionOk_policies_agree (BitVec.not_lt.mp hmin))
  · exact versionOk_policies_agree (hzero ▸ BitVec.le_def.mpr (Nat.zero_le _))

/-! The bytes behind the header. -/

/-- `HDR` reads the first 14 bytes only (rule R121). -/
theorem hdr_take (c : Config) {b : List Byte} (hlen : headerSize ≤ b.length) :
    hdr c (b.take headerSize) = hdr c b := by
  have hshort : (b.take headerSize).length = headerSize := List.length_take_of_le hlen
  simp only [hdr, hshort, decodeHeader_take, crcCopy_take, Nat.lt_irrefl, Nat.not_lt.mpr hlen,
    if_false]

theorem hdr_append (c : Config) {a : List Byte} (hlen : headerSize ≤ a.length) (x : List Byte) :
    hdr c (a ++ x) = hdr c a := by
  rw [← hdr_take c hlen, ← hdr_take c (by simp; omega), List.take_append_of_le_length hlen]

/-- Settles O18. -/
theorem hdrIgnoresLaterBytes : Obligations.HdrIgnoresLaterBytes :=
  fun c _ hlen => (hdr_take c hlen).symm

/-! The bytes of the header. -/

/-- The first bytes of a list, each by its index. -/
theorem take_eq_map_byteAt {b : List Byte} {n : Nat} (hlen : n ≤ b.length) :
    b.take n = (List.range n).map (byteAt b) := by
  refine List.ext_getElem (by simpa using hlen) fun i h1 h2 => ?_
  have hi : i < b.length := by rw [List.length_take] at h1; omega
  simp [byteAt_eq_getElem b i hi]

section
variable {b : List Byte}

/-- A header is 12 bytes and the two of its checksum (rule R60). -/
theorem take_headerSize (hlen : headerSize ≤ b.length) :
    b.take headerSize = b.take 12 ++ put16 (le16 b 12) := by
  rw [take_eq_map_byteAt hlen, take_eq_map_byteAt (Nat.le_trans (by decide) hlen), put16_le16]
  rfl

/-- The checksum is computed over the first 12 bytes and two zeros (rule R68). -/
theorem crcCopy_eq (hlen : headerSize ≤ b.length) : crcCopy b = b.take 12 ++ [0, 0] := by
  rw [crcCopy, take_eq_map_byteAt hlen, take_eq_map_byteAt (Nat.le_trans (by decide) hlen)]
  rfl

/-- The fields of a decoded header are put back where they were read. -/
theorem headerBytes_decodeHeader (hlen : headerSize ≤ b.length) :
    headerBytes (decodeHeader b) = crcCopy b := by
  rw [crcCopy_eq hlen, take_eq_map_byteAt (Nat.le_trans (by decide) hlen)]
  simp only [headerBytes, decodeHeader, put16_le16]
  rfl

end

/-! Encoding and decoding. -/

/-- The encoding is the header's fields and then the checksum. -/
theorem encodeHeader_eq (h : Header) :
    encodeHeader h = (headerBytes h).take 12 ++ put16 (crc16 (headerBytes h)) := rfl

/-- Decoding an encoded header reads each field from where it was put (rule R71). -/
theorem decodeHeader_encodeHeader (h : Header) :
    decodeHeader (encodeHeader h) = { h with headerCrc16 := crc16 (headerBytes h) } := by
  have hmagic : le16 (encodeHeader h) 0 = h.magic := (le16_eq_iff _ _ _).mpr ⟨rfl, rfl⟩
  have hseq : le16 (encodeHeader h) 8 = h.seq := (le16_eq_iff _ _ _).mpr ⟨rfl, rfl⟩
  have hpayload : le16 (encodeHeader h) 10 = h.payloadLen := (le16_eq_iff _ _ _).mpr ⟨rfl, rfl⟩
  have hcrc : le16 (encodeHeader h) 12 = crc16 (headerBytes h) :=
    (le16_eq_iff _ _ _).mpr ⟨rfl, rfl⟩
  rw [decodeHeader, hmagic, hseq, hpayload, hcrc]
  rfl

/-- With the checksum zeroed the encoding is what the checksum was computed over (rule R99). -/
theorem crcCopy_encodeHeader (h : Header) : crcCopy (encodeHeader h) = headerBytes h := rfl

/-- Settles O20. -/
theorem headerRoundTrip : Obligations.HeaderRoundTrip := by
  intro h
  have hcrc : le16 (encodeHeader h) 12 = crc16 (headerBytes h) :=
    congrArg Header.headerCrc16 (decodeHeader_encodeHeader h)
  refine ⟨decodeHeader_encodeHeader h, hcrc, fun c hmagic hversion hpayload => ?_⟩
  rw [hdr_ok_iff, decodeHeader_encodeHeader, crcCopy_encodeHeader]
  exact ⟨Nat.le_refl _, rfl, hmagic, hversion, hpayload, rfl⟩

/-- Encoding an accepted header gives the bytes it was decoded from (rule R134). -/
theorem encodeHeader_of_hdr_ok {c : Config} {b : List Byte} {h : Header} (hok : hdr c b = .ok h) :
    encodeHeader h = b.take headerSize := by
  obtain ⟨hlen, rfl, -, -, -, hcrc⟩ := (hdr_ok_iff c b h).mp hok
  have hshort : (b.take 12).length = 12 :=
    List.length_take_of_le (Nat.le_trans (by decide : 12 ≤ headerSize) hlen)
  have htwelve : (crcCopy b).take 12 = b.take 12 := by rw [crcCopy_eq hlen, List.take_left' hshort]
  rw [encodeHeader_eq, headerBytes_decodeHeader hlen, htwelve, hcrc, take_headerSize hlen]
  rfl

/-! A changed bit. -/

section
variable (b : List Byte) {i j k : Nat}

@[simp] theorem length_flipBit (i k : Nat) : (flipBit b i k).length = b.length := by
  simp [flipBit]

theorem byteAt_flipBit_of_ne (hij : i ≠ j) : byteAt (flipBit b i k) j = byteAt b j := by
  simp [flipBit, byteAt, hij]

theorem le16_flipBit_of_ne (h0 : i ≠ j) (h1 : i ≠ j + 1) : le16 (flipBit b i k) j = le16 b j := by
  rw [le16, byteAt_flipBit_of_ne b h0, byteAt_flipBit_of_ne b h1, le16]

theorem take_flipBit_of_le {n : Nat} (h : n ≤ i) : (flipBit b i k).take n = b.take n := by
  rw [flipBit, List.take_set_of_le h]

theorem take_flipBit_of_lt {n : Nat} (h : i < n) :
    (flipBit b i k).take n = flipBit (b.take n) i k := by
  rw [flipBit, List.take_set, flipBit, byteAt_take b h]

variable {b}

theorem byteAt_flipBit_ne (hi : i < b.length) (hk : k < 8) :
    byteAt (flipBit b i k) i ≠ byteAt b i := by
  have hself : byteAt (flipBit b i k) i = byteAt b i ^^^ (1#8 <<< k) := by
    rw [byteAt_eq_getElem _ _ (by simpa using hi)]
    exact List.getElem_set_self _
  rw [hself]
  exact xor_bit_ne _ hk

/-- A 16-bit field with a changed bit is another one. -/
theorem le16_flipBit_ne (hi : i < b.length) (hk : k < 8) (hij : i = j ∨ i = j + 1) :
    le16 (flipBit b i k) j ≠ le16 b j := by
  intro h
  obtain ⟨h0, h1⟩ := (le16_eq_iff (flipBit b i k) j (le16 b j)).mp h
  obtain ⟨h0', h1'⟩ := (le16_eq_iff b j (le16 b j)).mp rfl
  obtain rfl | rfl := hij
  · exact byteAt_flipBit_ne hi hk (h0.trans h0'.symm)
  · exact byteAt_flipBit_ne hi hk (h1.trans h1'.symm)

/-- A header with a changed bit does not carry its checksum: either the bytes it is computed over
have changed (rule R97), or the checksum itself. -/
theorem crc16_crcCopy_flipBit_ne (hlen : headerSize ≤ b.length) (hi : i < headerSize) (hk : k < 8)
    (hcrc : crc16 (crcCopy b) = le16 b 12) :
    crc16 (crcCopy (flipBit b i k)) ≠ le16 (flipBit b i k) 12 := by
  have hcopy : crcCopy (flipBit b i k) = (flipBit b i k).take 12 ++ [0, 0] :=
    crcCopy_eq (by simpa using hlen)
  by_cases h12 : i < 12
  · have hcovered : i < (crcCopy b).length := by simp [crcCopy]; omega
    have hflip : crcCopy (flipBit b i k) = flipBit (crcCopy b) i k := by
      have hbyte : byteAt (b.take 12 ++ [0, 0]) i = byteAt b i := by
        rw [byteAt_append_left _ _ (by simp; omega), byteAt_take b h12]
      rw [hcopy, crcCopy_eq hlen, take_flipBit_of_lt b h12, flipBit, flipBit, byteAt_take b h12,
        hbyte, List.set_append_left _ _ (by simp; omega)]
    rw [hflip, le16_flipBit_of_ne b (by omega) (by omega), ← hcrc]
    exact crc16DetectsOneBit _ _ _ hcovered hk
  · have hi : i < 14 := hi
    rw [hcopy, take_flipBit_of_le b (Nat.not_lt.mp h12), ← crcCopy_eq hlen, hcrc]
    exact (le16_flipBit_ne (Nat.lt_of_lt_of_le hi hlen) hk (by omega)).symm

end

/-- A header is valid when its five checks pass, each on its bytes (rules R111 and R118). -/
theorem headerValid_iff (c : Config) (b : List Byte) :
    headerValid c b ↔ headerSize ≤ b.length ∧ le16 b 0 = c.magic ∧
      versionOk c (byteAt b 2) (byteAt b 3) = true ∧ le16 b 10 ≤ c.maxPayload ∧
      crc16 (crcCopy b) = le16 b 12 := by
  constructor
  · rintro ⟨h, hok⟩
    obtain ⟨hlen, rfl, hmagic, hversion, hpayload, hcrc⟩ := (hdr_ok_iff c b h).mp hok
    exact ⟨hlen, hmagic, hversion, hpayload, hcrc⟩
  · rintro ⟨hlen, hmagic, hversion, hpayload, hcrc⟩
    exact ⟨_, (hdr_ok_iff c b _).mpr ⟨hlen, rfl, hmagic, hversion, hpayload, hcrc⟩⟩

/-! A changed bit of a valid header, by the byte that holds it (rule R124). -/

section
variable {c : Config} {b : List Byte} {i k : Nat}

theorem not_headerValid_flipBit (hv : headerValid c b) (hi : i < headerSize) (hk : k < 8) :
    ¬ headerValid c (flipBit b i k) := by
  obtain ⟨hlen, -, -, -, hcrc⟩ := (headerValid_iff c b).mp hv
  intro hv'
  obtain ⟨-, -, -, -, hcrc'⟩ := (headerValid_iff c _).mp hv'
  exact crc16_crcCopy_flipBit_ne hlen hi hk hcrc hcrc'

theorem headerSize_le_flipBit (hv : headerValid c b) : headerSize ≤ (flipBit b i k).length := by
  obtain ⟨hlen, -⟩ := (headerValid_iff c b).mp hv
  rwa [length_flipBit]

theorem magic_flipBit (hv : headerValid c b) (hi : 2 ≤ i) : le16 (flipBit b i k) 0 = c.magic := by
  obtain ⟨-, hmagic, -⟩ := (headerValid_iff c b).mp hv
  rw [le16_flipBit_of_ne b (by omega) (by omega), hmagic]

theorem version_flipBit (hv : headerValid c b) (hmajor : i ≠ 2) (hminor : i ≠ 3) :
    versionOk c (byteAt (flipBit b i k) 2) (byteAt (flipBit b i k) 3) = true := by
  obtain ⟨-, -, hversion, -⟩ := (headerValid_iff c b).mp hv
  rw [byteAt_flipBit_of_ne b hmajor, byteAt_flipBit_of_ne b hminor, hversion]

theorem payloadLen_flipBit (hv : headerValid c b) (hlow : i ≠ 10) (hhigh : i ≠ 11) :
    le16 (flipBit b i k) 10 ≤ c.maxPayload := by
  obtain ⟨-, -, -, hpayload, -⟩ := (headerValid_iff c b).mp hv
  rw [le16_flipBit_of_ne b hlow hhigh]
  exact hpayload

theorem hdr_flipBit_magic (hv : headerValid c b) (hi : i < 2) (hk : k < 8) :
    hdr c (flipBit b i k) = .fail .magic := by
  obtain ⟨hlen, hmagic, -⟩ := (headerValid_iff c b).mp hv
  have hib : i < b.length := Nat.lt_of_lt_of_le hi (Nat.le_trans (by decide) hlen)
  refine hdr_of_wrong_magic (headerSize_le_flipBit hv) ?_
  rw [← hmagic]
  exact le16_flipBit_ne hib hk (by omega)

theorem hdr_flipBit_major (hv : headerValid c b) (hk : k < 8) :
    hdr c (flipBit b 2 k) = .fail .version := by
  obtain ⟨hlen, -, hversion, -⟩ := (headerValid_iff c b).mp hv
  refine hdr_of_wrong_version (headerSize_le_flipBit hv) (magic_flipBit hv (Nat.le_refl 2))
    (versionOk_of_wrong_major ?_)
  rw [← (versionOk_bounds hversion).1]
  exact byteAt_flipBit_ne (Nat.lt_of_lt_of_le (by decide) hlen) hk

/-- A changed bit that no earlier check notices is a checksum failure. -/
theorem hdr_flipBit_of_earlier_checks (hv : headerValid c b) (h2 : 2 ≤ i) (hi : i < headerSize)
    (hk : k < 8)
    (hversion : versionOk c (byteAt (flipBit b i k) 2) (byteAt (flipBit b i k) 3) = true)
    (hpayload : le16 (flipBit b i k) 10 ≤ c.maxPayload) :
    hdr c (flipBit b i k) = .fail .crc := by
  obtain ⟨hlen, -, -, -, hcrc⟩ := (headerValid_iff c b).mp hv
  exact hdr_of_wrong_crc (headerSize_le_flipBit hv) (magic_flipBit hv h2) hversion hpayload
    (crc16_crcCopy_flipBit_ne hlen hi hk hcrc)

/-- A changed minor version is refused unless the policy takes minors below `PROTO_MINOR` and it is
one. -/
theorem hdr_flipBit_minor (hv : headerValid c b) (hk : k < 8) :
    hdr c (flipBit b 3 k) =
      if c.versionPolicy = .exact ∨ c.protoMinor < byteAt (flipBit b 3 k) 3 then .fail .version
      else .fail .crc := by
  obtain ⟨hlen, -, hversion, -⟩ := (headerValid_iff c b).mp hv
  have hchanged := byteAt_flipBit_ne (b := b) (i := 3) (Nat.lt_of_lt_of_le (by decide) hlen) hk
  have refused (hno : versionOk c (byteAt (flipBit b 3 k) 2) (byteAt (flipBit b 3 k) 3) = false) :
      hdr c (flipBit b 3 k) = .fail .version :=
    hdr_of_wrong_version (headerSize_le_flipBit hv) (magic_flipBit hv (by decide)) hno
  cases hpolicy : c.versionPolicy with
  | exact =>
    rw [if_pos (.inl rfl)]
    refine refused (Bool.eq_false_iff.mpr fun hok => hchanged ?_)
    rw [((versionOk_of_exact hpolicy).mp hok).2, ((versionOk_of_exact hpolicy).mp hversion).2]
  | minorAtMost =>
    have hmajor : byteAt (flipBit b 3 k) 2 = c.protoMajor := by
      rw [byteAt_flipBit_of_ne b (by decide), (versionOk_bounds hversion).1]
    by_cases hgreater : c.protoMinor < byteAt (flipBit b 3 k) 3
    · rw [if_pos (.inr hgreater)]
      exact refused (versionOk_of_greater_minor hgreater)
    · rw [if_neg (by simp [hgreater])]
      exact hdr_flipBit_of_earlier_checks hv (by decide) (by decide) hk
        ((versionOk_of_minorAtMost hpolicy).mpr ⟨hmajor, BitVec.not_lt.mp hgreater⟩)
        (payloadLen_flipBit hv (by decide) (by decide))

theorem hdr_flipBit_payloadLen (hv : headerValid c b) (hi : i = 10 ∨ i = 11) (hk : k < 8) :
    hdr c (flipBit b i k) =
      if c.maxPayload < le16 (flipBit b i k) 10 then .fail .payloadTooLarge else .fail .crc := by
  have hversion := version_flipBit (k := k) hv (show i ≠ 2 by omega) (show i ≠ 3 by omega)
  split
  case isTrue hlarge =>
    exact hdr_of_payload_too_large (headerSize_le_flipBit hv) (magic_flipBit hv (by omega)) hversion
      hlarge
  case isFalse hfits =>
    exact hdr_flipBit_of_earlier_checks hv (by omega) (by rw [headerSize]; omega) hk hversion
      (BitVec.not_lt.mp hfits)

end

/-- Settles O21: the byte that holds the changed bit says which check meets it first; only a minor
version and a payload length can still be accepted, and then the checksum fails. -/
theorem headerSingleBitVerdict : Obligations.HeaderSingleBitVerdict := by
  intro c b b' i k hv hi hk hb'
  have hv : headerValid c (b.take headerSize) := by
    obtain ⟨hlen, -⟩ := (headerValid_iff c b).mp hv
    rwa [headerValid, hdr_take c hlen]
  change b' = flipBit (b.take headerSize) i k at hb'
  subst hb'
  refine ⟨not_headerValid_flipBit hv hi hk, fun h => hdr_flipBit_magic hv h hk, ?_, ?_,
    fun h => hdr_flipBit_payloadLen hv h hk, fun h => ?_⟩
  · rintro rfl
    exact hdr_flipBit_major hv hk
  · rintro rfl
    exact hdr_flipBit_minor hv hk
  · exact hdr_flipBit_of_earlier_checks hv (by omega) hi hk
      (version_flipBit hv (by omega) (by omega)) (payloadLen_flipBit hv (by omega) (by omega))

end Sys2Proof.Machine
end

section
/-! The packet validator on packets as bytes (spec/43_packet_validator.md): which packets are
accepted, and what becomes of one with a changed bit or a wrong length. -/

namespace Sys2Proof.Machine

/-! The parts of a packet. -/

section
variable (b : List Byte)

theorem byteAt_drop (m k : Nat) : byteAt (b.drop m) k = byteAt b (m + k) := by
  simp [byteAt]

theorem le32_append_right (a : List Byte) (k : Nat) : le32 (a ++ b) (a.length + k) = le32 b k := by
  simp only [le32, Nat.add_assoc, byteAt_append_right]

/-- The last four bytes are those of the number read from them. -/
theorem drop_eq_put32_le32 {b : List Byte} {m : Nat} (hlen : b.length = m + 4) :
    b.drop m = put32 (le32 b m) := by
  have hfour : (b.drop m).length = 4 := by rw [List.length_drop]; omega
  rw [← List.take_of_length_le (Nat.le_of_eq hfour), take_eq_map_byteAt (Nat.le_of_eq hfour.symm),
    put32_le32]
  simp only [funext (byteAt_drop b m)]
  rfl

variable {b} {h : Header}

theorem payloadOf_eq_take_drop :
    payloadOf h b = (b.drop headerSize).take h.payloadLen.toNat :=
  payloadOf_eq h b

theorem length_payloadOf (hlen : b.length = frameLen h) :
    (payloadOf h b).length = h.payloadLen.toNat := by
  rw [payloadOf_eq, List.length_take, List.length_drop, hlen, frameLen_eq]
  omega

/-- A packet of its header's length is header, payload and trailer (rules R129 and R130). -/
theorem eq_header_payload_trailer (hlen : b.length = frameLen h) :
    b = b.take headerSize ++ payloadOf h b ++ put32 (storedCrc32 h b) := by
  have htrailer : (b.drop headerSize).drop h.payloadLen.toNat = put32 (storedCrc32 h b) := by
    rw [List.drop_drop, storedCrc32]
    exact drop_eq_put32_le32 hlen
  rw [← htrailer, payloadOf_eq, List.append_assoc]
  simp only [headerSize, List.take_append_drop]

end

/-! Accepted packets. -/

/-- An accepted header, a payload of its length and the payload's checksum are a valid packet. -/
theorem pkt_of_parts {c : Config} {g : Header} {a p : List Byte} (hhdr : hdr c a = .ok g)
    (ha : a.length = headerSize) (hp : p.length = g.payloadLen.toNat) :
    pkt c (a ++ p ++ put32 (crc32 p)) = .ok := by
  refine (pkt_ok_iff c _).mpr ⟨g, ?_, ?_, ?_⟩
  · rw [List.append_assoc, hdr_append c (Nat.le_of_eq ha.symm), hhdr]
  · simp [frameLen, trailerSize, ha, hp]
    omega
  · have hpayload : payloadOf g (a ++ p ++ put32 (crc32 p)) = p := by
      rw [payloadOf_eq_take_drop, List.append_assoc, List.drop_left' ha, ← hp, List.take_left]
    have htrailer : storedCrc32 g (a ++ p ++ put32 (crc32 p)) = crc32 p := by
      rw [storedCrc32, ← ha, ← hp, ← List.length_append]
      exact (le32_append_right _ _ 0).trans (le32_put32 _ [])
    rw [hpayload, htrailer]

/-- A built frame is valid when its header's fields are accepted and its payload is not too long. -/
theorem pkt_buildFrame {c : Config} {h : Header} {p : List Byte} (hmagic : h.magic = c.magic)
    (hversion : versionOk c h.protoMajor h.protoMinor = true)
    (hpayload : p.length ≤ c.maxPayload.toNat) : pkt c (buildFrame h p) = .ok := by
  have hfits : p.length < 2 ^ 16 := Nat.lt_of_le_of_lt hpayload c.maxPayload.isLt
  have hlen : (BitVec.ofNat 16 p.length).toNat = p.length := by
    rw [BitVec.toNat_ofNat, Nat.mod_eq_of_lt hfits]
  obtain ⟨-, -, haccepted⟩ := headerRoundTrip { h with payloadLen := BitVec.ofNat 16 p.length }
  exact pkt_of_parts (haccepted c hmagic hversion (by rwa [BitVec.le_def, hlen])) rfl hlen.symm

/-- A valid packet is the frame built from its own header and payload. -/
theorem buildFrame_of_hdr_ok {c : Config} {h : Header} {b : List Byte} (hhdr : hdr c b = .ok h)
    (hlen : b.length = frameLen h) (hcrc : crc32 (payloadOf h b) = storedCrc32 h b) :
    buildFrame h (payloadOf h b) = b := by
  have hpayload : { h with payloadLen := BitVec.ofNat 16 (payloadOf h b).length } = h := by
    rw [length_payloadOf hlen, BitVec.ofNat_toNat, BitVec.setWidth_eq]
  rw [buildFrame, hpayload, encodeHeader_of_hdr_ok hhdr, hcrc]
  exact (eq_header_payload_trailer hlen).symm

/-- Settles O24: a valid packet is built from the header and payload read from it. -/
theorem pktAcceptsExactlyBuiltFrames : Obligations.PktAcceptsExactlyBuiltFrames := by
  intro c b
  constructor
  · intro hok
    obtain ⟨h, hhdr, hlen, hcrc⟩ := (pkt_ok_iff c b).mp hok
    obtain ⟨-, -, hmagic, hversion, hpayload, -⟩ := (hdr_ok_iff c b h).mp hhdr
    refine ⟨h, payloadOf h b, hmagic, hversion, ?_, (buildFrame_of_hdr_ok hhdr hlen hcrc).symm⟩
    rw [length_payloadOf hlen]
    exact BitVec.le_def.mp hpayload
  · rintro ⟨h, p, hmagic, hversion, hpayload, rfl⟩
    exact pkt_buildFrame hmagic hversion hpayload

/-! A wrong length. -/

/-- Settles O26: the header is still accepted, while 14 bytes of it are there, and its frame length
is no longer the packet's. -/
theorem packetWithWrongLength : Obligations.PacketWithWrongLength := by
  intro c b hok
  obtain ⟨h, hhdr, hlen, -⟩ := (pkt_ok_iff c b).mp hok
  have hmin : minPacket ≤ b.length := hlen ▸ minPacket_le_frameLen h
  have hheader : headerSize ≤ b.length := Nat.le_trans (by decide) hmin
  constructor
  · intro x hx
    have hlonger := List.length_pos_iff.mpr hx
    refine pkt_of_wrong_length ?_ ((hdr_append c hheader x).trans hhdr) ?_ <;>
      rw [List.length_append] <;> omega
  · intro n hn
    have hshorter : (b.take n).length = n := List.length_take_of_le (Nat.le_of_lt hn)
    split
    case isTrue hshort => exact pkt_of_short (hshorter.symm ▸ hshort)
    case isFalse hlong =>
      have hlong : minPacket ≤ (b.take n).length := hshorter.symm ▸ Nat.not_lt.mp hlong
      have hsame : hdr c (b.take n) = hdr c b := by
        rw [← hdr_append c (Nat.le_trans (by decide) hlong) (b.drop n), List.take_append_drop]
      exact pkt_of_wrong_length hlong (hsame.trans hhdr) (by omega)

/-! A changed bit. -/

section
variable (b : List Byte) {i k m : Nat}

theorem le32_flipBit_of_lt (h : i < m) : le32 (flipBit b i k) m = le32 b m := by
  rw [le32, byteAt_flipBit_of_ne b (by omega), byteAt_flipBit_of_ne b (by omega),
    byteAt_flipBit_of_ne b (by omega), byteAt_flipBit_of_ne b (by omega), le32]

theorem drop_flipBit_of_le (h : m ≤ i) : (flipBit b i k).drop m = flipBit (b.drop m) (i - m) k := by
  rw [flipBit, List.drop_set, if_neg (Nat.not_lt.mpr h), flipBit, byteAt_drop,
    Nat.add_sub_cancel' h]

variable {b}

/-- A number with a changed bit is another one: its bytes are. -/
theorem le32_flipBit_ne (hlen : b.length = m + 4) (hm : m ≤ i) (hi : i < b.length) (hk : k < 8) :
    le32 (flipBit b i k) m ≠ le32 b m := by
  intro h
  have hsame : (flipBit b i k).drop m = b.drop m := by
    rw [drop_eq_put32_le32 hlen, drop_eq_put32_le32 (by simpa using hlen), h]
  have hbyte := congrArg (byteAt · (i - m)) hsame
  simp only [byteAt_drop, Nat.add_sub_cancel' hm] at hbyte
  exact byteAt_flipBit_ne hi hk hbyte

/-- Behind the header a changed bit is in the payload, whose checksum it changes (rule R107), or in
the stored checksum. -/
theorem crc32_payloadOf_flipBit_ne {h : Header} (hlen : b.length = frameLen h) (hi : i < b.length)
    (hk : k < 8) (hbehind : headerSize ≤ i) (hcrc : crc32 (payloadOf h b) = storedCrc32 h b) :
    crc32 (payloadOf h (flipBit b i k)) ≠ storedCrc32 h (flipBit b i k) := by
  have hpayload : payloadOf h (flipBit b i k) =
      (flipBit (b.drop headerSize) (i - headerSize) k).take h.payloadLen.toNat := by
    rw [payloadOf_eq_take_drop, drop_flipBit_of_le b hbehind]
  by_cases htrailer : headerSize + h.payloadLen.toNat ≤ i
  · rw [hpayload, take_flipBit_of_le _ (by omega), ← payloadOf_eq_take_drop, hcrc]
    exact (le32_flipBit_ne hlen htrailer hi hk).symm
  · have hinside : i - headerSize < (payloadOf h b).length := by
      rw [length_payloadOf hlen]
      omega
    rw [hpayload, take_flipBit_of_lt _ (by omega), ← payloadOf_eq_take_drop, storedCrc32,
      le32_flipBit_of_lt b (by omega), ← storedCrc32, ← hcrc]
    exact crc32DetectsOneBit _ _ _ hinside hk

end

/-- Settles O25: in the header the changed bit is met by `HDR`; behind it the header and the length
are as before, and the payload checksum fails. -/
theorem packetSingleBitVerdict : Obligations.PacketSingleBitVerdict := by
  intro c b i k hok hi hk
  obtain ⟨h, hhdr, hlen, hcrc⟩ := (pkt_ok_iff c b).mp hok
  have hlen' : (flipBit b i k).length = frameLen h := by rw [length_flipBit, hlen]
  have hmin : minPacket ≤ (flipBit b i k).length := hlen' ▸ minPacket_le_frameLen h
  constructor
  · intro hheader
    have hinvalid := not_headerValid_flipBit ⟨h, hhdr⟩ hheader hk
    cases hflip : hdr c (flipBit b i k) with
    | fail e => exact ⟨e, pkt_of_hdr_fail hmin hflip⟩
    | ok g => exact absurd ⟨g, hflip⟩ hinvalid
  · intro (hbehind : headerSize ≤ i)
    have hsame : hdr c (flipBit b i k) = .ok h := by
      rw [← hdr_take c (Nat.le_trans (by decide) hmin), take_flipBit_of_le b hbehind,
        hdr_take c (by rw [hlen]; exact Nat.le_trans (by decide) (minPacket_le_frameLen h)), hhdr]
    exact pkt_of_wrong_crc hsame hlen' (crc32_payloadOf_flipBit_ne hlen hi hk hbehind hcrc)

end Sys2Proof.Machine
end

section
/-! The derived state again (spec/44_stream_framer.md rules R143, R152 and R159): every value of it
with its condition on the buffered bytes, the room it leaves, and that more input does not change a
state that waits for none. -/

namespace Sys2Proof.Machine

section
variable {c : Config} {q : List Byte}

/-- Everything the derived state can be, each value with its condition (rule R143); the capacity
test is dead (rule R148). -/
theorem fstate_cases (c : Config) (q : List Byte) :
    (q.length < 2 ∧ fstate c q = .filling) ∨
    (2 ≤ q.length ∧ le16 q 0 ≠ c.magic ∧ fstate c q = .seekingMagic) ∨
    (q.length < headerSize ∧ fstate c q = .awaitingHeader) ∨
    (∃ e, headerSize ≤ q.length ∧ le16 q 0 = c.magic ∧ hdr c q = .fail e ∧
      fstate c q = .headerBad) ∨
    (∃ h, hdr c q = .ok h ∧ q.length < frameLen h ∧ fstate c q = .awaitingFrame (frameLen h)) ∨
    (∃ h, hdr c q = .ok h ∧ frameLen h ≤ q.length ∧ fstate c q = .emit (frameLen h)) := by
  by_cases hshort : q.length < 2
  · exact .inl ⟨hshort, by simp [fstate, hshort]⟩
  have htwo := Nat.not_lt.mp hshort
  by_cases hmagic : le16 q 0 = c.magic
  case neg => exact .inr (.inl ⟨htwo, hmagic, fstate_seekingMagic_iff.mpr ⟨htwo, hmagic⟩⟩)
  by_cases hheader : q.length < headerSize
  · exact .inr (.inr (.inl ⟨hheader, by simp [fstate, hshort, hmagic, hheader]⟩))
  have hlen := Nat.not_lt.mp hheader
  have htake := hdr_take c hlen
  cases hhdr : hdr c q with
  | fail e =>
    exact .inr (.inr (.inr (.inl ⟨e, hlen, hmagic, rfl, by
      simp [fstate, hshort, hmagic, hheader, htake, hhdr]⟩)))
  | ok h =>
    have hcap : ¬ c.cap < frameLen h := Nat.not_lt.mpr (frameLen_le_cap hhdr)
    by_cases hframe : q.length < frameLen h
    · exact .inr (.inr (.inr (.inr (.inl ⟨h, rfl, hframe, by
        simp [fstate, hshort, hmagic, hheader, htake, hhdr, hcap, hframe]⟩))))
    · exact .inr (.inr (.inr (.inr (.inr ⟨h, rfl, Nat.not_lt.mp hframe, by
        simp [fstate, hshort, hmagic, hheader, htake, hhdr, hcap, hframe]⟩))))

theorem headerSize_le_of_hdr_ok {h : Header} (hok : hdr c q = .ok h) : headerSize ≤ q.length := by
  obtain ⟨hlen, -⟩ := (hdr_ok_iff c q h).mp hok
  exact hlen

theorem magic_of_hdr_ok {h : Header} (hok : hdr c q = .ok h) : le16 q 0 = c.magic := by
  obtain ⟨-, rfl, hmagic, -⟩ := (hdr_ok_iff c q h).mp hok
  exact hmagic

/-- The framer emits exactly when an accepted header's whole frame is buffered (rule R149). -/
theorem fstate_emit_iff {n : Nat} :
    fstate c q = .emit n ↔ ∃ h, hdr c q = .ok h ∧ n = frameLen h ∧ n ≤ q.length := by
  constructor
  · intro hemit
    obtain ⟨hlen, -, h, hok, rfl⟩ := fstate_emit hemit
    have hpacket : minPacket ≤ q.length := Nat.le_trans (minPacket_le_frameLen h) hlen
    have hheader : headerSize ≤ q.length := Nat.le_trans (by decide) hpacket
    exact ⟨h, (hdr_take c hheader).symm.trans hok, rfl, hlen⟩
  · rintro ⟨h, hok, rfl, hlen⟩
    have hheader := headerSize_le_of_hdr_ok hok
    have htwo : ¬ q.length < 2 := by simp only [headerSize] at hheader; omega
    simp [fstate, htwo, magic_of_hdr_ok hok, Nat.not_lt.mpr hheader, hdr_take c hheader, hok,
      Nat.not_lt.mpr (frameLen_le_cap hok), Nat.not_lt.mpr hlen]

/-- The framer discards for the header exactly when 14 bytes that begin with the magic are refused
(rule R147). -/
theorem fstate_headerBad_iff :
    fstate c q = .headerBad ↔
      headerSize ≤ q.length ∧ le16 q 0 = c.magic ∧ ∃ e, hdr c q = .fail e := by
  constructor
  · intro hbad
    obtain ⟨hlen, hmagic, e, hfail⟩ := fstate_headerBad hbad
    exact ⟨hlen, hmagic, e, (hdr_take c hlen).symm.trans hfail⟩
  · rintro ⟨hlen, hmagic, e, hfail⟩
    have htwo : ¬ q.length < 2 := by simp only [headerSize] at hlen; omega
    simp [fstate, htwo, hmagic, Nat.not_lt.mpr hlen, hdr_take c hlen, hfail]

theorem le16_append_left (a x : List Byte) {k : Nat} (h : k + 1 < a.length) :
    le16 (a ++ x) k = le16 a k := by
  rw [le16, byteAt_append_left _ _ (Nat.lt_of_succ_lt h), byteAt_append_left _ _ h, le16]

/-- More input changes nothing for a framer that is not waiting for any (rule R151). -/
theorem fstate_append (h : waiting (fstate c q) = false) (x : List Byte) :
    fstate c (q ++ x) = fstate c q := by
  have htwo : 2 ≤ q.length := fstate_not_waiting_length h
  have hmagic_same : le16 (q ++ x) 0 = le16 q 0 := le16_append_left q x htwo
  have hlonger : q.length ≤ (q ++ x).length := by simp
  obtain ⟨-, hf⟩ | ⟨-, hmagic, hf⟩ | ⟨-, hf⟩ | ⟨e, hlen, hmagic, hfail, hf⟩ | ⟨y, -, -, hf⟩ |
    ⟨y, hok, hframe, hf⟩ := fstate_cases c q
  case inr.inl =>
    rw [hf, fstate_seekingMagic_iff, hmagic_same]
    exact ⟨Nat.le_trans htwo hlonger, hmagic⟩
  case inr.inr.inr.inl =>
    rw [hf, fstate_headerBad_iff, hmagic_same, hdr_append c hlen]
    exact ⟨Nat.le_trans hlen hlonger, hmagic, e, hfail⟩
  case inr.inr.inr.inr.inr =>
    rw [hf, fstate_emit_iff, hdr_append c (headerSize_le_of_hdr_ok hok)]
    exact ⟨y, hok, rfl, Nat.le_trans hframe hlonger⟩
  all_goals simp [hf, waiting] at h

end

/-- Each waiting state bounds the bytes buffered (rule R159). -/
theorem fstate_leaves_room (c : Config) (q : List Byte) :
    (fstate c q = .filling → q.length ≤ 1) ∧ (fstate c q = .awaitingHeader → q.length ≤ 13) ∧
      ∀ n, fstate c q = .awaitingFrame n → q.length < n ∧ n ≤ c.cap := by
  obtain ⟨hlen, hf⟩ | ⟨-, -, hf⟩ | ⟨hlen, hf⟩ | ⟨e, -, -, -, hf⟩ | ⟨y, hok, hlen, hf⟩ |
    ⟨y, -, -, hf⟩ := fstate_cases c q <;> rw [hf]
  · exact ⟨fun _ => Nat.le_of_lt_succ hlen, nofun, nofun⟩
  · exact ⟨nofun, nofun, nofun⟩
  · exact ⟨nofun, fun _ => Nat.le_of_lt_succ hlen, nofun⟩
  · exact ⟨nofun, nofun, nofun⟩
  · refine ⟨nofun, nofun, fun n h => ?_⟩
    obtain rfl := FState.awaitingFrame.inj h
    exact ⟨hlen, frameLen_le_cap hok⟩
  · exact ⟨nofun, nofun, nofun⟩

/-- Settles O38: with room left in every waiting state the overflow turn, the only one that discards
and appends, is not taken. -/
theorem waitingLeavesRoom : Obligations.WaitingLeavesRoom := by
  intro c F
  obtain ⟨hfilling, hheader, hframe⟩ := fstate_leaves_room c (buffered F)
  rw [length_buffered] at hfilling hheader hframe
  refine ⟨hfilling, hheader, hframe, wc_lt_cap_of_quiescent, fun b data G es rest hturn => ?_⟩
  obtain ⟨-, -, rfl, -⟩ | ⟨n, -, -, rfl, -⟩ | ⟨b', -, -, -, -, rfl⟩ | ⟨b', hq, -, hfull, -, -⟩ :=
    turn_again_cases hturn
  · simp
  · simp
  · simp
  · exact absurd hfull (Nat.ne_of_lt (wc_lt_cap_of_quiescent hq))

end Sys2Proof.Machine
end

section
/-! A whole push by induction on its loop, and what follows from it turn by turn: pushes in pieces,
the work of a push, the frames it emits, and what a reset finds of it. -/

namespace Sys2Proof.Machine

section
variable {c : Config}

/-- What holds where the loop of rule R154 returns, and before a turn when it holds after it, holds
of every push. -/
theorem push_induction {P : Framer → List Byte → Prop}
    (finished : ∀ F, quiescent c F = true → P F [])
    (again : ∀ F data G es rest, turn c F data = .again G es rest → P G rest → P F data)
    (F : Framer) (data : List Byte) : P F data := by
  induction hn : turnBound F data using Nat.strong_induction_on generalizing F data with
  | _ n ih =>
    cases hturn : turn c F data with
    | finished =>
      obtain ⟨hq, rfl⟩ := (turn_finished_iff c F data).mp hturn
      exact finished F hq
    | again G es rest =>
      exact again F data G es rest hturn (ih _ (hn ▸ turn_lowers_bound hturn) G rest rfl)

theorem push_of_quiescent {F : Framer} (h : quiescent c F = true) :
    push c F [] = { framer := F, events := [], rest := [], returned := true } :=
  push_of_finished ((turn_finished_iff c F []).mpr ⟨h, rfl⟩)

/-- Settles O35. -/
theorem emptyPushDoesNothing : Obligations.EmptyPushDoesNothing := by
  intro s hw hq
  exact ⟨_, exec_fpush_of_finished hw ((turn_finished_iff _ _ _).mpr ⟨hq, rfl⟩), rfl, rfl, rfl, rfl⟩

/-! Pushes in pieces. -/

/-- A turn does the same whatever input comes later. -/
theorem turn_append {F G : Framer} {data rest : List Byte} {es : List FramerEvent}
    (h : turn c F data = .again G es rest) (x : List Byte) :
    turn c F (data ++ x) = .again G es (rest ++ x) := by
  obtain ⟨hf, rfl, rfl, rfl⟩ | ⟨n, hf, rfl, rfl, rfl⟩ | ⟨b, hq, rfl, hw, rfl, rfl⟩ |
    ⟨b, hq, rfl, hw, rfl, rfl⟩ := turn_again_cases h
  · exact turn_of_discard_state hf _
  · exact turn_of_emit_state hf _
  · exact (turn_of_quiescent hq _).trans (inputTurn_of_room hw b _)
  · exact (turn_of_quiescent hq _).trans (inputTurn_of_full hw b _)

/-- Pushing two pieces at once is pushing the one and then the other (rule R160). -/
theorem push_append (F : Framer) (a x : List Byte) :
    push c F (a ++ x) =
      { push c (push c F a).framer x with
        events := (push c F a).events ++ (push c (push c F a).framer x).events } := by
  induction F, a using push_induction (c := c) with
  | finished F hq => rw [push_of_quiescent hq]; rfl
  | again F data G es rest hturn ih =>
    rw [push_of_again (turn_append hturn x), push_of_again hturn, ih, List.append_assoc]

theorem push_wc_le (F : Framer) (data : List Byte) (hw : F.wc ≤ c.cap) :
    (push c F data).framer.wc ≤ c.cap :=
  turns_keep (P := fun G _ _ => G.wc ≤ c.cap) (es := [])
    (fun _ _ _ _ _ _ h ht => turn_keeps_cursor h ht) _ hw

end

/-- Settles O43: the first piece and the concatenation of the rest are pushed as one, and after the
first piece the framer is quiescent. -/
theorem chunkingChangesNothing : Obligations.ChunkingChangesNothing := by
  intro ds
  induction ds with
  | nil =>
    intro s hw hstart
    have hq : quiescent s.cfg s.framer = true := hstart.resolve_left fun h => h rfl
    obtain ⟨u, hu, hframer, hevents, hcfg, hinputs⟩ := emptyPushDoesNothing s hw hq
    exact ⟨s, u, rfl, hu, hframer.symm, hevents.symm, hcfg.symm, hinputs.symm⟩
  | cons d ds ih =>
    intro s hw _
    obtain ⟨-, -, hq⟩ := push_returns s.cfg s.framer d
    have hw' := push_wc_le (c := s.cfg) s.framer d hw
    obtain ⟨t, u, ht, hu, hframer, hevents, hcfg, hinputs⟩ :=
      ih (complete (framerDid s (push s.cfg s.framer d).framer (push s.cfg s.framer d).events)
        (rspNoStatus s.fresh)) hw' (.inr hq)
    rw [exec_fpush hw', Host.Outcome.next.injEq] at hu
    subst hu
    refine ⟨t, _, ?_, exec_fpush hw _, ?_, ?_, hcfg, hinputs⟩
    · rw [List.map_cons, execAll, exec_fpush hw]
      exact ht
    · rw [hframer, List.flatten_cons, push_append]
      rfl
    · rw [hevents, List.flatten_cons, push_append]
      simp

/-! The work of a push and the frames it emits. -/

/-- A turn that discards or emits gives up at least one buffered byte for a discard, 18 for a frame.
-/
theorem turn_pays {c : Config} {F G : Framer} {data rest : List Byte} {es : List FramerEvent}
    (h : turn c F data = .again G es rest) :
    (discardedBytes es).length + 18 * (deliveries es).length + G.wc + rest.length ≤
      F.wc + data.length := by
  have two (hf : waiting (fstate c (buffered F)) = false) : 2 ≤ F.wc := by
    simpa using fstate_not_waiting_length hf
  obtain ⟨hf, rfl, rfl, rfl⟩ | ⟨n, hf, rfl, rfl, rfl⟩ | ⟨b, -, rfl, -, rfl, rfl⟩ |
    ⟨b, hq, -, hfull, -, -⟩ := turn_again_cases h
  · have := two (by obtain hf | hf := hf <;> rw [hf] <;> rfl)
    simp [discardedBytes, deliveries]
    omega
  · obtain ⟨x, -, rfl, hlen⟩ := fstate_emit_iff.mp hf
    have hmin : 18 ≤ frameLen x := minPacket_le_frameLen x
    simp [discardedBytes, deliveries] at hlen ⊢
    omega
  · simp [discardedBytes, deliveries]
    omega
  · exact absurd hfull (Nat.ne_of_lt (wc_lt_cap_of_quiescent hq))

theorem push_pays (c : Config) (F : Framer) (data : List Byte) :
    (discardedBytes (push c F data).events).length +
      18 * (deliveries (push c F data).events).length ≤ F.wc + data.length := by
  induction F, data using push_induction (c := c) with
  | finished F hq =>
    rw [push_of_quiescent hq]
    exact Nat.zero_le _
  | again F data G es rest hturn ih =>
    have hpaid := turn_pays hturn
    simp only [push_of_again hturn, discardedBytes_append, deliveries_append, List.length_append]
    omega

/-- Settles O40: every append is paid for by the input, every discard and every frame by bytes that
were buffered or appended. -/
theorem fpushWorkIsBounded : Obligations.FpushWorkIsBounded := by
  intro d s t es _ h hes
  obtain ⟨-, rfl⟩ := exec_fpush_next h
  obtain rfl : (push s.cfg s.framer d).events = es := List.append_cancel_left hes
  have hpaid := push_pays s.cfg s.framer d
  exact ⟨by rw [appendedBytes_push], by omega, by omega⟩

theorem mem_deliveries {es : List FramerEvent} {x : Delivery} :
    x ∈ deliveries es ↔ .emit x ∈ es := by
  induction es with
  | nil => simp [deliveries]
  | cons e es ih => cases e <;> simp [deliveries, ih]

/-- A frame in `Emit` is an accepted header's, and the header is still accepted at its front. -/
theorem hdr_take_of_emit {c : Config} {q : List Byte} {n : Nat} (h : fstate c q = .emit n) :
    ∃ y, hdr c (q.take n) = .ok y ∧ (q.take n).length = frameLen y := by
  obtain ⟨y, hok, rfl, hlen⟩ := fstate_emit_iff.mp h
  have hframe : (q.take (frameLen y)).length = frameLen y := List.length_take_of_le hlen
  have hheader : headerSize ≤ (q.take (frameLen y)).length :=
    hframe.symm ▸ Nat.le_trans (by decide) (minPacket_le_frameLen y)
  refine ⟨y, ?_, hframe⟩
  rw [← hdr_append c hheader (q.drop (frameLen y)), List.take_append_drop, hok]

/-- Settles O41: a delivery is made in `Emit`, and of the checks of `PKT` only the payload checksum
is then left. -/
theorem emittedFramesAreHeaderValid : Obligations.EmittedFramesAreHeaderValid := by
  intro d s t es h hes f hf
  obtain ⟨-, rfl⟩ := exec_fpush_next h
  obtain rfl : (push s.cfg s.framer d).events = es := List.append_cancel_left hes
  obtain ⟨x, hx, rfl⟩ := List.mem_map.mp hf
  obtain ⟨pre, post, hrecord⟩ := List.append_of_mem (mem_deliveries.mp hx)
  obtain ⟨m, flen, -, hemit, rfl⟩ := turns_delivers hrecord
  obtain ⟨y, hok, hlen⟩ := hdr_take_of_emit hemit
  have hmin := minPacket_le_frameLen y
  refine ⟨Nat.le_trans hmin (Nat.le_of_eq hlen.symm), ⟨y, hok, hlen⟩, ?_⟩
  by_cases hcrc : crc32 (payloadOf y (delivery (turns s.cfg m s.framer d).framer flen).frame) =
      storedCrc32 y (delivery (turns s.cfg m s.framer d).framer flen).frame
  · exact .inl ((pkt_ok_iff _ _).mpr ⟨y, hok, hlen, hcrc⟩)
  · exact .inr (pkt_of_wrong_crc hok hlen hcrc)

theorem length_consumedBytes (es : List FramerEvent) :
    (consumedBytes es).length =
      (discardedBytes es).length + ((framesOf es).map List.length).sum := by
  induction es with
  | nil => rfl
  | cons e es ih =>
    cases e <;> simp [consumedBytes, discardedBytes, framesOf, deliveries] at ih ⊢ <;> omega

/-- Settles O45: the books balance byte by byte, so they balance in number. -/
theorem bytesAreConserved : Obligations.BytesAreConserved := by
  intro s hs
  rw [hs.ledger.bytes, List.length_append, length_consumedBytes, length_buffered]

/-! A push that a reset abandons (spec/70_reset_and_hazards.md rule R200). -/

section
variable {c : Config} {F : Framer} {data : List Byte}

/-- More turns record more. -/
theorem turns_events_prefix {n m : Nat} (hnm : n ≤ m) (F : Framer) (data : List Byte) :
    (turns c n F data).events <+: (turns c m F data).events := by
  induction n generalizing m F data with
  | zero => exact List.nil_prefix
  | succ n ih =>
    obtain ⟨m, rfl⟩ : ∃ k, m = k + 1 := ⟨m - 1, by omega⟩
    cases hturn : turn c F data with
    | finished => rw [turns_of_finished hturn, turns_of_finished hturn]
    | again G es rest =>
      rw [turns_of_again hturn, turns_of_again hturn]
      exact (List.prefix_append_right_inj es).mpr (ih (by omega) G rest)

/-- Any number of turns records an initial part of what the whole push does. -/
theorem turns_events_prefix_push (n : Nat) (F : Framer) (data : List Byte) :
    (turns c n F data).events <+: (push c F data).events := by
  obtain ⟨hreturned, -⟩ := push_returns c F data
  have hall : turns c (max n (turnBound F data)) F data = push c F data :=
    turns_of_returned (Nat.le_max_right _ _) hreturned
  rw [← hall]
  exact turns_events_prefix (Nat.le_max_left _ _) F data

/-- Where some turns have led to `Emit`, the next one delivers the frame. -/
theorem turns_succ_of_emit {n flen : Nat}
    (h : fstate c (buffered (turns c n F data).framer) = .emit flen) :
    (turns c (n + 1) F data).events =
      (turns c n F data).events ++ [.emit (delivery (turns c n F data).framer flen)] := by
  induction n generalizing F data with
  | zero =>
    have hemit : fstate c (buffered F) = .emit flen := h
    rw [turns_of_again (turn_of_emit_state hemit data)]
    rfl
  | succ n ih =>
    cases hturn : turn c F data with
    | finished =>
      obtain ⟨hq, -⟩ := (turn_finished_iff c F data).mp hturn
      rw [turns_of_finished hturn] at h
      simp [quiescent, h, waiting] at hq
    | again G es rest =>
      rw [turns_of_again hturn] at h
      rw [turns_of_again hturn, turns_of_again hturn, ih h, List.append_assoc]

end

/-- What a reset cuts of a frame: the bytes the sink had taken, when the framer was delivering one.
-/
def cutOf (c : Config) (F : Framer) (taken : Nat) : List FramerEvent :=
  match fstate c (buffered F) with
  | .emit flen => [.cutFrame ((buffered F).take (min taken flen))]
  | _ => []

section
variable {c : Config} {F : Framer}

theorem cutOf_of_emit {flen : Nat} (h : fstate c (buffered F) = .emit flen) (k : Nat) :
    cutOf c F k = [.cutFrame ((buffered F).take (min k flen))] := by
  simp [cutOf, h]

theorem cutOf_of_not_emit (h : ∀ flen, fstate c (buffered F) ≠ .emit flen) (k : Nat) :
    cutOf c F k = [] := by
  cases hf : fstate c (buffered F) with
  | emit flen => exact absurd hf (h flen)
  | _ => simp [cutOf, hf]

theorem abandonedEvents_of_fpush {a : Abandoned} (h : a.command.op = fpushSelector) :
    abandonedEvents c F a =
      (turns c a.turns F (a.command.data.take a.command.len)).events ++
        cutOf c (turns c a.turns F (a.command.data.take a.command.len)).framer a.frameBytes := by
  rw [abandonedEvents, if_pos h]
  generalize turns c a.turns F (a.command.data.take a.command.len) = r
  cases hf : fstate c (buffered r.framer) <;> simp [cutOf, hf, List.take_take]

end

/-- Settles O54: the record of some turns is an initial part of the push's, and the frame then being
delivered is the push's next event. -/
theorem abandonedPushIsAFirstPart : Obligations.AbandonedPushIsAFirstPart := by
  intro s c n k rest hinputs
  refine ⟨fun hop => ⟨_, step_reset hinputs, ?_⟩, ?_⟩
  · rw [hardwareReset_events, eventsBeforeReset, abandonedEvents_of_ne hop]
    rfl
  · rintro hop d r rfl rfl
    refine ⟨_, cutOf s.cfg (turns s.cfg n s.framer (c.data.take c.len)).framer k,
      step_reset hinputs, ?_, fun flen hemit => ⟨cutOf_of_emit hemit k, ?_⟩,
      fun hno => cutOf_of_not_emit hno k, turns_events_prefix_push n _ _⟩
    · rw [hardwareReset_events, eventsBeforeReset, abandonedEvents_of_fpush hop]
      simp
    · rw [← turns_succ_of_emit hemit]
      exact turns_events_prefix_push (n + 1) _ _

end Sys2Proof.Machine
end

section
/-! The framer on a whole stream (spec/44_stream_framer.md rules R151, R162 and R163): the bulk
framer, that the byte-wise loop refines it, and what it makes of streams without the magic and of
frames in noise. -/

namespace Sys2Proof.Machine

section
variable {c : Config} {q : List Byte}

/-! The bulk framer, without the bound on its turns. -/

/-- The derived state discards, emits or waits. -/
theorem fstate_discards_emits_or_waits (c : Config) (q : List Byte) :
    (fstate c q = .seekingMagic ∨ fstate c q = .headerBad) ∨ (∃ n, fstate c q = .emit n) ∨
      waiting (fstate c q) = true := by
  cases fstate c q <;> simp [waiting]

theorem bulkTurns_of_discard (h : fstate c q = .seekingMagic ∨ fstate c q = .headerBad) (n : Nat) :
    bulkTurns c (n + 1) q =
      (.discard (byteAt q 0) :: (bulkTurns c n (q.drop 1)).1, (bulkTurns c n (q.drop 1)).2) := by
  obtain h | h := h <;> simp [bulkTurns, h]

theorem bulkTurns_of_emit {flen : Nat} (h : fstate c q = .emit flen) (n : Nat) :
    bulkTurns c (n + 1) q =
      (.emit (q.take flen) :: (bulkTurns c n (q.drop flen)).1,
        (bulkTurns c n (q.drop flen)).2) := by
  simp [bulkTurns, h]

theorem bulkTurns_of_waiting (h : waiting (fstate c q) = true) (n : Nat) :
    bulkTurns c n q = ([], q) := by
  cases n with
  | zero => rfl
  | succ n => cases hf : fstate c q <;> simp [hf, waiting, bulkTurns] at h ⊢

theorem two_le_length_of_discard (h : fstate c q = .seekingMagic ∨ fstate c q = .headerBad) :
    2 ≤ q.length :=
  fstate_not_waiting_length (by obtain h | h := h <;> rw [h] <;> rfl)

theorem frame_bounds_of_emit {flen : Nat} (h : fstate c q = .emit flen) :
    minPacket ≤ flen ∧ flen ≤ q.length := by
  obtain ⟨x, -, rfl, hlen⟩ := fstate_emit_iff.mp h
  exact ⟨minPacket_le_frameLen x, hlen⟩

/-- Every turn takes a byte, so more turns than bytes change nothing. -/
theorem bulkTurns_eq_of_length_le {n m : Nat} (hn : q.length ≤ n) (hm : q.length ≤ m) :
    bulkTurns c n q = bulkTurns c m q := by
  induction n generalizing m q with
  | zero =>
    obtain rfl : q = [] := List.eq_nil_of_length_eq_zero (Nat.le_zero.mp hn)
    have hw : waiting (fstate c []) = true := by simp [fstate, waiting]
    rw [bulkTurns_of_waiting hw, bulkTurns_of_waiting hw]
  | succ n ih =>
    obtain hf | ⟨flen, hf⟩ | hf := fstate_discards_emits_or_waits c q
    · have htwo := two_le_length_of_discard hf
      obtain ⟨m, rfl⟩ : ∃ k, m = k + 1 := ⟨m - 1, by omega⟩
      rw [bulkTurns_of_discard hf, bulkTurns_of_discard hf,
        ih (m := m) (by rw [List.length_drop]; omega) (by rw [List.length_drop]; omega)]
    · obtain ⟨hmin, hlen⟩ := frame_bounds_of_emit hf
      have hpos : 1 ≤ flen := Nat.le_trans (by decide) hmin
      obtain ⟨m, rfl⟩ : ∃ k, m = k + 1 := ⟨m - 1, by omega⟩
      rw [bulkTurns_of_emit hf, bulkTurns_of_emit hf,
        ih (m := m) (by rw [List.length_drop]; omega) (by rw [List.length_drop]; omega)]
    · rw [bulkTurns_of_waiting hf, bulkTurns_of_waiting hf]

theorem bulk_of_discard (h : fstate c q = .seekingMagic ∨ fstate c q = .headerBad) :
    bulk c q = (.discard (byteAt q 0) :: (bulk c (q.drop 1)).1, (bulk c (q.drop 1)).2) := by
  have htwo := two_le_length_of_discard h
  rw [bulk, bulkTurns_eq_of_length_le (m := q.length + 1) (Nat.le_refl _) (Nat.le_succ _),
    bulkTurns_of_discard h, bulkTurns_eq_of_length_le (m := (q.drop 1).length) (by simp)
      (Nat.le_refl _)]
  rfl

theorem bulk_of_emit {flen : Nat} (h : fstate c q = .emit flen) :
    bulk c q = (.emit (q.take flen) :: (bulk c (q.drop flen)).1, (bulk c (q.drop flen)).2) := by
  rw [bulk, bulkTurns_eq_of_length_le (m := q.length + 1) (Nat.le_refl _) (Nat.le_succ _),
    bulkTurns_of_emit h, bulkTurns_eq_of_length_le (m := (q.drop flen).length) (by simp)
      (Nat.le_refl _)]
  rfl

theorem bulk_of_waiting (h : waiting (fstate c q) = true) : bulk c q = ([], q) :=
  bulkTurns_of_waiting h _

/-! The byte-wise loop refines it. -/

/-- A push does to the buffered bytes followed by its input what the bulk framer does: a state that
discards or emits does so whatever follows, and an append only moves the border between the two. -/
theorem bulk_eq_push (F : Framer) (data : List Byte) (hF : Memory.wf F.buf) :
    bulk c (buffered F ++ data) =
      (actionsOf (push c F data).events, buffered (push c F data).framer) := by
  induction F, data using push_induction (c := c) with
  | finished F hq =>
    rw [push_of_quiescent hq, List.append_nil, bulk_of_waiting hq]
    rfl
  | again F data G es rest hturn ih =>
    rw [push_of_again hturn]
    obtain ⟨hf, rfl, rfl, rfl⟩ | ⟨n, hf, rfl, rfl, rfl⟩ | ⟨b, -, rfl, -, rfl, rfl⟩ |
      ⟨b, hq, -, hfull, -, -⟩ := turn_again_cases hturn
    · have htwo := two_le_length_of_discard hf
      have hwc : 0 < F.wc := Nat.lt_of_lt_of_le (by decide) (length_buffered F ▸ htwo)
      have hwhole : fstate c (buffered F ++ rest) = .seekingMagic ∨
          fstate c (buffered F ++ rest) = .headerBad := by
        rwa [fstate_append (by obtain hf | hf := hf <;> rw [hf] <;> rfl)]
      have hfront : byteAt (buffered F ++ rest) 0 = Memory.read F.buf 0 := by
        rw [byteAt_append_left _ _ (by omega), byteAt_buffered hwc]
      have hdrop : (buffered F ++ rest).drop 1 = buffered (discard1 c F) ++ rest := by
        rw [buffered_discard1 hF, List.drop_append_of_le_length (by omega)]
      rw [bulk_of_discard hwhole, hfront, hdrop, ih (Memory.shiftDown_wf hF _ _ _)]
      rfl
    · obtain ⟨hmin, hlen⟩ := frame_bounds_of_emit hf
      have hpos : 1 ≤ n := Nat.le_trans (by decide) hmin
      have hwhole : fstate c (buffered F ++ rest) = .emit n := by
        rwa [fstate_append (by rw [hf]; rfl)]
      have hdrop : (buffered F ++ rest).drop n = buffered (emitFrame c F n) ++ rest := by
        rw [buffered_emitFrame hF c hpos, List.drop_append_of_le_length hlen]
      rw [bulk_of_emit hwhole, List.take_append_of_le_length hlen, hdrop,
        ih (Memory.shiftDown_wf hF _ _ _)]
      rfl
    · have hmoved : buffered F ++ b :: rest = buffered (bufAppend F b) ++ rest := by
        rw [buffered_bufAppend hF, List.append_assoc]
        rfl
      rw [hmoved, ih (Memory.write_wf hF _ _)]
      rfl
    · exact absurd hfull (Nat.ne_of_lt (wc_lt_cap_of_quiescent hq))

end

/-- Settles O44. -/
theorem bytewiseLoopRefinesBulk : Obligations.BytewiseLoopRefinesBulk := by
  intro d s t es hF h hes
  obtain ⟨-, rfl⟩ := exec_fpush_next h
  obtain rfl : (push s.cfg s.framer d).events = es := List.append_cancel_left hes
  exact bulk_eq_push s.framer d hF

/-! Frames and discards, read from the actions. -/

/-- The frame of an action, if it is an emission. -/
def Action.frame? : Action → Option (List Byte)
  | .discard _ => none
  | .emit f => some f

/-- The byte of an action, if it is a discard. -/
def Action.discarded? : Action → Option Byte
  | .discard b => some b
  | .emit _ => none

theorem framesOf_eq_filterMap (es : List FramerEvent) :
    framesOf es = (actionsOf es).filterMap Action.frame? := by
  induction es with
  | nil => rfl
  | cons e es ih =>
    rw [framesOf] at ih
    cases e <;> simp [framesOf, deliveries, actionsOf, List.filterMap_cons, Action.frame?, ih]

theorem discardedBytes_eq_filterMap (es : List FramerEvent) :
    discardedBytes es = (actionsOf es).filterMap Action.discarded? := by
  induction es with
  | nil => rfl
  | cons e es ih =>
    cases e <;> simp [discardedBytes, actionsOf, List.filterMap_cons, Action.discarded?, ih]

@[simp] theorem filterMap_frame_discards (d : List Byte) :
    (d.map Action.discard).filterMap Action.frame? = [] := by
  rw [List.filterMap_map]
  exact List.filterMap_eq_nil_iff.mpr fun _ _ => rfl

@[simp] theorem filterMap_discarded_discards (d : List Byte) :
    (d.map Action.discard).filterMap Action.discarded? = d := by
  rw [List.filterMap_map]
  exact List.filterMap_some

/-- A push into an empty buffer, by what the bulk framer does with its input. -/
theorem push_of_bulk {c : Config} {F : Framer} {d left : List Byte} {acts : List Action}
    (hF : Memory.wf F.buf) (hw : F.wc = 0) (hbulk : bulk c d = (acts, left)) :
    framesOf (push c F d).events = acts.filterMap Action.frame? ∧
      discardedBytes (push c F d).events = acts.filterMap Action.discarded? ∧
      buffered (push c F d).framer = left := by
  have hempty : buffered F = [] := List.eq_nil_of_length_eq_zero (by simpa using hw)
  have hpush := bulk_eq_push (c := c) F d hF
  rw [hempty, List.nil_append, hbulk, Prod.mk.injEq] at hpush
  obtain ⟨rfl, rfl⟩ := hpush
  exact ⟨framesOf_eq_filterMap _, discardedBytes_eq_filterMap _, rfl⟩

/-! A stream without the magic. -/

/-- No two adjacent bytes are the magic, its low byte first. -/
def NoMagic (c : Config) (d : List Byte) : Prop :=
  ∀ j, j + 1 < d.length → ¬ (byteAt d j = c.magic.extractLsb' 0 8 ∧
    byteAt d (j + 1) = c.magic.extractLsb' 8 8)

theorem NoMagic.tail {c : Config} {b : Byte} {d : List Byte} (h : NoMagic c (b :: d)) :
    NoMagic c d :=
  fun j hj => h (j + 1) (Nat.succ_lt_succ hj)

/-- While two bytes are there the first is discarded, and one byte is kept. -/
theorem bulk_of_noMagic {c : Config} {d : List Byte} (h : NoMagic c d) :
    bulk c d = ((d.take (d.length - 1)).map .discard, d.drop (d.length - 1)) := by
  induction d with
  | nil => exact bulk_of_waiting (by simp [fstate, waiting])
  | cons b d ih =>
    cases d with
    | nil => exact bulk_of_waiting (by simp [fstate, waiting])
    | cons b' d =>
      have hseek : fstate c (b :: b' :: d) = .seekingMagic :=
        fstate_seekingMagic_iff.mpr
          ⟨by simp, fun hmagic => h 0 (by simp) ((le16_eq_iff _ _ _).mp hmagic)⟩
      rw [bulk_of_discard (.inl hseek), List.drop_one, List.tail_cons, ih h.tail]
      simp

/-- Without a delivery a push leaves the frame counter (rule R27). -/
theorem framesEmitted_push_of_no_frame (c : Config) (F : Framer) (data : List Byte)
    (h : framesOf (push c F data).events = []) :
    (push c F data).framer.framesEmitted = F.framesEmitted := by
  induction F, data using push_induction (c := c) with
  | finished F hq => rw [push_of_quiescent hq]
  | again F data G es rest hturn ih =>
    rw [push_of_again hturn] at h ⊢
    obtain ⟨hhere, hlater⟩ : framesOf es = [] ∧ framesOf (push c G rest).events = [] := by
      simpa [framesOf] using h
    obtain ⟨-, rfl, -, -⟩ | ⟨n, -, -, rfl, -⟩ | ⟨b, -, -, -, rfl, -⟩ | ⟨b, -, -, -, rfl, -⟩ :=
      turn_again_cases hturn
    · exact ih hlater
    · simp [framesOf, deliveries] at hhere
    · exact ih hlater
    · exact ih hlater

/-- A push counts its discards on from any count that has wrapped (rules R26 and R150). -/
theorem syncLossCount_push (c : Config) (F : Framer) (data : List Byte) {k : Nat}
    (h : F.syncLossCount = truncN c.cntW k) :
    (push c F data).framer.syncLossCount =
      truncN c.cntW (k + (discardedBytes (push c F data).events).length) := by
  induction F, data using push_induction (c := c) generalizing k with
  | finished F hq => rw [push_of_quiescent hq]; exact h
  | again F data G es rest hturn ih =>
    have hturn_counts : G.syncLossCount = truncN c.cntW (k + (discardedBytes es).length) := by
      obtain ⟨-, rfl, rfl, -⟩ | ⟨n, -, rfl, rfl, -⟩ | ⟨b, -, -, -, rfl, rfl⟩ |
        ⟨b, -, -, -, rfl, rfl⟩ := turn_again_cases hturn
      · simp [h, discardedBytes, truncN_truncN_add_one]
      · exact h
      · exact h
      · simp [h, discardedBytes, truncN_truncN_add_one]
    rw [push_of_again hturn, discardedBytes_append, List.length_append, ← Nat.add_assoc]
    exact ih hturn_counts

/-- Settles O46. -/
theorem streamWithoutMagicIsLost : Obligations.StreamWithoutMagicIsLost := by
  intro d s hF hw hno
  obtain ⟨hframes, hlost, hleft⟩ := push_of_bulk hF hw (bulk_of_noMagic hno)
  rw [filterMap_frame_discards] at hframes
  rw [filterMap_discarded_discards] at hlost
  have hlen : (discardedBytes (push s.cfg s.framer d).events).length = d.length - 1 := by
    rw [hlost, List.length_take]
    omega
  have hcursor : (push s.cfg s.framer d).framer.wc = min d.length 1 := by
    rw [← length_buffered, hleft, List.length_drop]
    omega
  refine ⟨_, _, exec_fpush (by omega) d, rfl, hframes, hlen, hcursor, hleft,
    framesEmitted_push_of_no_frame _ _ _ hframes, fun hzero => ?_⟩
  have hcount := syncLossCount_push s.cfg s.framer d (k := 0) (by simp [hzero, truncN])
  rwa [Nat.zero_add, hlen] at hcount

/-! Frames in noise. -/

section
variable {c : Config}

theorem NoiseClean.front {b : Byte} {noise x : List Byte} (h : NoiseClean c (b :: noise) x) :
    ¬ headerValid c (b :: (noise ++ x)) :=
  h 0 (by simp)

theorem NoiseClean.tail {b : Byte} {noise x : List Byte} (h : NoiseClean c (b :: noise) x) :
    NoiseClean c noise x :=
  fun k hk => h (k + 1) (Nat.succ_lt_succ hk)

/-- Fourteen bytes that are no valid header are discarded from. -/
theorem fstate_of_not_headerValid {q : List Byte} (hlen : headerSize ≤ q.length)
    (hno : ¬ headerValid c q) : fstate c q = .seekingMagic ∨ fstate c q = .headerBad := by
  obtain ⟨hshort, -⟩ | ⟨-, -, hf⟩ | ⟨hshort, -⟩ | ⟨e, -, -, -, hf⟩ | ⟨y, hok, -⟩ | ⟨y, hok, -⟩ :=
    fstate_cases c q
  · exact absurd (Nat.lt_of_lt_of_le hshort (by decide)) (Nat.not_lt.mpr hlen)
  · exact .inl hf
  · exact absurd hshort (Nat.not_lt.mpr hlen)
  · exact .inr hf
  · exact absurd ⟨y, hok⟩ hno
  · exact absurd ⟨y, hok⟩ hno

/-- Clean noise before a whole header is discarded, byte by byte. -/
theorem bulk_of_noise {noise x : List Byte} (hclean : NoiseClean c noise x)
    (hlong : headerSize ≤ x.length) :
    bulk c (noise ++ x) = (noise.map .discard ++ (bulk c x).1, (bulk c x).2) := by
  induction noise with
  | nil => rfl
  | cons b noise ih =>
    have hlen : headerSize ≤ (b :: (noise ++ x)).length := by simp; omega
    rw [List.cons_append, bulk_of_discard (fstate_of_not_headerValid hlen hclean.front),
      List.drop_one, List.tail_cons, ih hclean.tail]
    rfl

/-- Of the last run of noise the framer keeps a suffix, which is not empty if the run is not. -/
theorem bulk_of_last_noise {tail : List Byte} (hclean : NoiseClean c tail []) :
    ∃ lost left, tail = lost ++ left ∧ (tail ≠ [] → left ≠ []) ∧
      bulk c tail = (lost.map .discard, left) := by
  induction tail with
  | nil => exact ⟨[], [], rfl, id, bulk_of_waiting (by simp [fstate, waiting])⟩
  | cons b tail ih =>
    obtain hf | ⟨n, hf⟩ | hf := fstate_discards_emits_or_waits c (b :: tail)
    · obtain ⟨lost, left, hsplit, hkept, hbulk⟩ := ih hclean.tail
      have hmore : tail ≠ [] := by
        rintro rfl
        exact absurd (two_le_length_of_discard hf) (by simp)
      refine ⟨b :: lost, left, by rw [hsplit]; rfl, fun _ => hkept hmore, ?_⟩
      rw [bulk_of_discard hf, List.drop_one, List.tail_cons, hbulk]
      rfl
    · obtain ⟨y, hok, -⟩ := fstate_emit_iff.mp hf
      exact absurd ⟨y, by rwa [List.append_nil]⟩ hclean.front
    · exact ⟨[], b :: tail, rfl, id, bulk_of_waiting hf⟩

/-- A valid packet at the front is emitted. -/
theorem bulk_of_packet {f : List Byte} (hok : pkt c f = .ok) (x : List Byte) :
    bulk c (f ++ x) = (.emit f :: (bulk c x).1, (bulk c x).2) := by
  obtain ⟨y, hhdr, hlen, -⟩ := (pkt_ok_iff c f).mp hok
  have hemit : fstate c (f ++ x) = .emit f.length :=
    fstate_emit_iff.mpr
      ⟨y, (hdr_append c (headerSize_le_of_hdr_ok hhdr) x).trans hhdr, hlen, by simp⟩
  rw [bulk_of_emit hemit, List.take_left, List.drop_left]

theorem headerSize_le_of_pkt_ok {f : List Byte} (hok : pkt c f = .ok) : headerSize ≤ f.length := by
  obtain ⟨y, hhdr, -⟩ := (pkt_ok_iff c f).mp hok
  exact headerSize_le_of_hdr_ok hhdr

/-- What the bulk framer does with frames in clean noise: the frames, in order, are emitted, and the
noise is discarded but for a suffix of its last run. -/
theorem bulk_of_stream {bs : List Burst} {tail : List Byte} (hclean : StreamClean c bs tail) :
    ∃ acts lost left, bulk c (streamOf bs tail) = (acts, left) ∧ tail = lost ++ left ∧
      (tail ≠ [] → left ≠ []) ∧ acts.filterMap Action.frame? = bs.map Burst.frame ∧
      (acts.filterMap Action.discarded?).length + left.length = noiseLength bs tail := by
  induction bs with
  | nil =>
    obtain ⟨lost, left, hsplit, hkept, hbulk⟩ := bulk_of_last_noise hclean
    refine ⟨_, lost, left, hbulk, hsplit, hkept, filterMap_frame_discards lost, ?_⟩
    rw [filterMap_discarded_discards, noiseLength, hsplit, List.length_append]
  | cons b bs ih =>
    obtain ⟨hnoise, hok, hrest⟩ := hclean
    obtain ⟨acts, lost, left, hbulk, hsplit, hkept, hframes, hcount⟩ := ih hrest
    have hlong : headerSize ≤ (b.frame ++ streamOf bs tail).length := by
      rw [List.length_append]
      exact Nat.le_trans (headerSize_le_of_pkt_ok hok) (Nat.le_add_right _ _)
    refine ⟨b.noise.map .discard ++ .emit b.frame :: acts, lost, left, ?_, hsplit, hkept, ?_, ?_⟩
    · rw [streamOf, bulk_of_noise hnoise hlong, bulk_of_packet hok, hbulk]
    · rw [List.filterMap_append, filterMap_frame_discards, List.map_cons, ← hframes]
      rfl
    · rw [List.filterMap_append, filterMap_discarded_discards, List.length_append, Nat.add_assoc,
        noiseLength, ← hcount]
      rfl

end

/-- Settles O47. -/
theorem framesInNoiseAreRecovered : Obligations.FramesInNoiseAreRecovered := by
  intro bs tail s hF hw hclean
  obtain ⟨acts, lost, left, hbulk, hsplit, hkept, hframes, hcount⟩ := bulk_of_stream hclean
  obtain ⟨hemitted, hlost, hleft⟩ := push_of_bulk hF hw hbulk
  have hcursor : (push s.cfg s.framer (streamOf bs tail)).framer.wc = left.length := by
    rw [← hleft, length_buffered]
  refine ⟨_, _, exec_fpush (by omega) _, rfl, hemitted.trans hframes, ?_, ⟨lost, ?_⟩, fun h => ?_⟩
  · rw [hlost]
    exact hcursor ▸ hcount
  · exact hsplit.trans (congrArg (lost ++ ·) hleft.symm)
  · exact (List.length_pos_iff.mpr (hkept h)).trans_eq hcursor.symm

end Sys2Proof.Machine
end

section
/-! Buffer bytes that no operation can tell (spec/10_state.md rule R29): a simulation between
framers that differ in them only. -/

namespace Sys2Proof.Machine

/-- Framers with the same view, both with a canonical buffer. -/
structure Twins (F G : Framer) : Prop where
  left : Memory.wf F.buf
  right : Memory.wf G.buf
  view : SameView F G

section
variable {c : Config} {F G F' : Framer}

theorem SameView.read_zero (h : SameView F G) (hw : 0 < F.wc) :
    Memory.read F.buf 0 = Memory.read G.buf 0 := by
  rw [← byteAt_buffered hw, ← byteAt_buffered (h.wc ▸ hw), h.bytes]

theorem SameView.delivery (h : SameView F G) (n : Nat) :
    delivery F n = Machine.delivery G n := by
  simp only [Machine.delivery, h.wc, h.bytes, h.lost, h.frames]

theorem Twins.after_discard1 (h : Twins F G) (c : Config) :
    Twins (discard1 c F) (discard1 c G) where
  left := Memory.shiftDown_wf h.left _ _ _
  right := Memory.shiftDown_wf h.right _ _ _
  view :=
    { wc := by rw [discard1_wc, discard1_wc, h.view.wc]
      bytes := by rw [buffered_discard1 h.left, buffered_discard1 h.right, h.view.bytes]
      lost := by rw [discard1_syncLossCount, discard1_syncLossCount, h.view.lost]
      frames := h.view.frames }

theorem Twins.after_emitFrame (h : Twins F G) (c : Config) {n : Nat} (hn : 1 ≤ n) :
    Twins (emitFrame c F n) (emitFrame c G n) where
  left := Memory.shiftDown_wf h.left _ _ _
  right := Memory.shiftDown_wf h.right _ _ _
  view :=
    { wc := by rw [emitFrame_wc, emitFrame_wc, h.view.wc]
      bytes := by rw [buffered_emitFrame h.left c hn, buffered_emitFrame h.right c hn, h.view.bytes]
      lost := h.view.lost
      frames := by rw [emitFrame_framesEmitted, emitFrame_framesEmitted, h.view.frames] }

theorem Twins.after_bufAppend (h : Twins F G) (b : Byte) :
    Twins (bufAppend F b) (bufAppend G b) where
  left := Memory.write_wf h.left _ _
  right := Memory.write_wf h.right _ _
  view :=
    { wc := by rw [bufAppend_wc, bufAppend_wc, h.view.wc]
      bytes := by rw [buffered_bufAppend h.left, buffered_bufAppend h.right, h.view.bytes]
      lost := h.view.lost
      frames := h.view.frames }

/-- Twins take the same turn and stay twins; the overflow turn of rule R152 does not occur. -/
theorem Twins.turn {data rest : List Byte} {es : List FramerEvent} (h : Twins F G)
    (hturn : turn c F data = .again F' es rest) :
    ∃ G', Machine.turn c G data = .again G' es rest ∧ Twins F' G' := by
  have hbytes := h.view.bytes
  obtain ⟨hf, rfl, rfl, rfl⟩ | ⟨n, hf, rfl, rfl, rfl⟩ | ⟨b, hq, rfl, hw, rfl, rfl⟩ |
    ⟨b, hq, -, hfull, -, -⟩ := turn_again_cases hturn
  · have hwc : 0 < F.wc :=
      Nat.lt_of_lt_of_le (by decide) (length_buffered F ▸ two_le_length_of_discard hf)
    refine ⟨_, ?_, h.after_discard1 c⟩
    rw [hbytes] at hf
    rw [turn_of_discard_state hf, discardTurn, h.view.read_zero hwc]
  · have hpos : 1 ≤ n := Nat.le_trans (by decide) (frame_bounds_of_emit hf).1
    refine ⟨_, ?_, h.after_emitFrame c hpos⟩
    rw [hbytes] at hf
    rw [turn_of_emit_state hf, emitTurn, h.view.delivery]
  · refine ⟨_, ?_, h.after_bufAppend b⟩
    rw [quiescent, hbytes] at hq
    rw [turn_of_quiescent hq, inputTurn_of_room (h.view.wc ▸ hw)]
  · exact absurd hfull (Nat.ne_of_lt (wc_lt_cap_of_quiescent hq))

/-- Twins record the same push and stay twins. -/
theorem Twins.push (h : Twins F G) (data : List Byte) :
    (push c G data).events = (Machine.push c F data).events ∧
      Twins (Machine.push c F data).framer (Machine.push c G data).framer := by
  induction F, data using push_induction (c := c) generalizing G with
  | finished F hq =>
    have hq' : quiescent c G = true := by rwa [quiescent, h.view.bytes] at hq
    rw [push_of_quiescent hq, push_of_quiescent hq']
    exact ⟨rfl, h⟩
  | again F data F' es rest hturn ih =>
    obtain ⟨G', hturn', h'⟩ := h.turn hturn
    obtain ⟨hevents, htwins⟩ := ih h'
    rw [push_of_again hturn, push_of_again hturn', hevents]
    exact ⟨rfl, htwins⟩

end

/-! The whole state. -/

section
variable {s u : State}

theorem SameState.complete (h : SameState s u) (r : Rsp) :
    SameState (complete s r) (Machine.complete u r) :=
  ⟨h.cfg, h.framer, rfl, h.inputs, h.events, congrArg (· + 1) h.fresh⟩

theorem SameState.framerDid (h : SameState s u) {F G : Framer} (hview : SameView F G)
    (es : List FramerEvent) : SameState (framerDid s F es) (Machine.framerDid u G es) :=
  ⟨h.cfg, hview, h.rsp, h.inputs, congrArg (· ++ es) h.events, h.fresh⟩

end

/-- Settles O56: a pure operation answers both alike, `FINIT` leaves both the same framer, and a
push goes turn by turn alike. -/
theorem freeBufferBytesAreInvisible : Obligations.FreeBufferBytesAreInvisible := by
  intro i s u t hs hu hsame h
  have hpure (hpush : ∀ d, i ≠ .fpush d) (hinit : i ≠ .finit) :
      ∃ v, exec i u = .next v ∧ SameState t v ∧
        Memory.wf t.framer.buf ∧ Memory.wf v.framer.buf := by
    obtain ⟨r, hr⟩ := exec_pure hpush hinit
    rw [hr, Host.Outcome.next.injEq] at h
    subst h
    exact ⟨_, hr u, by rw [← hsame.cfg, ← hsame.fresh]; exact hsame.complete _, hs, hu⟩
  cases i with
  | crc16 d => exact hpure nofun nofun
  | crc32 d => exact hpure nofun nofun
  | hdr d => exact hpure nofun nofun
  | pkt d => exact hpure nofun nofun
  | finit =>
    rw [exec_finit, Host.Outcome.next.injEq] at h
    subst h
    refine ⟨_, exec_finit u, ?_, Memory.wf_nil, Memory.wf_nil⟩
    rw [← hsame.rsp]
    exact (hsame.framerDid ⟨rfl, rfl, rfl, rfl⟩ _).complete _
  | fpush d =>
    obtain ⟨hw, rfl⟩ := exec_fpush_next h
    obtain ⟨hevents, htwins⟩ := Twins.push (c := s.cfg) ⟨hs, hu, hsame.framer⟩ d
    have hw' : u.framer.wc ≤ u.cfg.cap := by rwa [← hsame.framer.wc, ← hsame.cfg]
    refine ⟨_, exec_fpush hw' d, ?_, htwins.left, ?_⟩
    · rw [← hsame.cfg, ← hsame.fresh, hevents]
      exact (hsame.framerDid htwins.view _).complete _
    · rw [← hsame.cfg]
      exact htwins.right

end Sys2Proof.Machine
end

section
/-! What is seen from outside: the state after reset, hardware reset, the status codes and
registers, and the frame port (spec/10_state.md section 5, spec/30_encoding.md section 2). -/

namespace Sys2Proof.Machine

/-- Settles O48: reset leaves the initial framer and no response. -/
theorem resetValues : Obligations.ResetValues := by
  intro c
  have hfilling : fstate c [] = .filling := by simp [fstate]
  exact ⟨rfl, rfl, rfl, Memory.read_nil, hfilling, rfl, rfl, rfl, rfl, rfl⟩

/-- Settles O53: reset and `FINIT` put the same framer in place. -/
theorem hardwareResetInitialises : Obligations.HardwareResetInitialises := by
  intro s a rest hinputs
  refine ⟨_, _, step_reset hinputs, exec_finit s, rfl, hardwareReset_valid _ _, rfl, rfl, ?_⟩
  rintro rfl
  rfl

/-- Settles O57, name by name. -/
theorem statusCodesAreTheTable : Obligations.StatusCodesAreTheTable := by
  refine ⟨rfl, rfl, rfl, rfl, rfl, rfl, rfl, rfl, rfl, rfl, rfl, fun a b => ?_, fun a => ?_⟩
  · cases a <;> cases b <;> decide
  · cases a <;> decide

theorem truncN_lt (n v : Nat) : truncN n v < 2 ^ n := Nat.mod_lt _ (Nat.two_pow_pos n)

theorem cap_lt (c : Config) : c.cap < 2 ^ 17 := by
  have := c.maxPayload.isLt
  simp only [Config.cap, headerSize, trailerSize]
  omega

/-- Settles O58: the cursor is below `CAP`, the counters wrap at their width, and the constants are
as wide as their types. -/
theorem statusRegistersFitTheirWidth : Obligations.StatusRegistersFitTheirWidth := by
  intro s r hs
  cases r with
  | wc => exact Nat.lt_trans hs.framer.cursor Nat.lt_log2_self
  | syncLossCount => exact hs.ledger.lost.trans_lt (truncN_lt _ _)
  | framesEmitted => exact hs.ledger.frames.trans_lt (truncN_lt _ _)
  | magic => exact s.cfg.magic.isLt
  | protoMajor => exact s.cfg.protoMajor.isLt
  | protoMinor => exact s.cfg.protoMinor.isLt
  | versionPolicy =>
    simp only [readStatus, statusWidth]
    split <;> decide
  | maxPayload => exact s.cfg.maxPayload.isLt
  | cap => exact cap_lt s.cfg

/-- Settles O59: the beats run over the frame's indices. -/
theorem frameBytesLeaveInOrder : Obligations.FrameBytesLeaveInOrder := by
  intro f
  constructor
  · rw [frmBeats, List.map_map]
    exact (take_eq_map_byteAt (Nat.le_refl f.length)).symm.trans List.take_length
  · intro i h
    simp [frmBeats]

end Sys2Proof.Machine
end
